-- ==== Sys2Proof/Word.lean ====
section
/-! DEFINITION. The one word of this hardware: a byte (spec 00_scope.md R7). -/

namespace Sys2Proof

/-- A byte, an unsigned value 0..255: every register, memory cell, operand and address (R7). -/
abbrev Byte := BitVec 8

end Sys2Proof
end

