-- ==== Sys2Proof/Config.lean ====
section
/-! DEFINITION. The implementation parameters of spec 00_scope.md R6 that have more than one value: the opcode map, the
behaviour past address 255, and the free exit statuses. Their default values stand in
Machine/Parameters.lean. -/

namespace Sys2Proof

/-- `pcOverflow` (R6, R86): what a fetch or a PC advance past address 255 does. -/
inductive PcOverflow where
  /-- Addresses are taken mod 256: the default (D3, log 3). -/
  | wrap
  /-- The cycle raises AddressOutOfRange. -/
  | fault
  deriving DecidableEq, Repr

/-- The opcode byte of each mnemonic (R65). The source gives no values, so they are a parameter of the engine; an engine
takes only an injective one (`Config`). -/
structure OpcodeMap where
  ldi  : Byte
  prn  : Byte
  pra  : Byte
  add  : Byte
  sub  : Byte
  mul  : Byte
  div  : Byte
  cmp  : Byte
  push : Byte
  pop  : Byte
  call : Byte
  ret  : Byte
  jmp  : Byte
  jeq  : Byte
  jne  : Byte
  hlt  : Byte
  deriving DecidableEq, Repr

/-- The 16 opcode values, in the order of the table of R65. -/
def OpcodeMap.codes (map : OpcodeMap) : List Byte :=
  [map.ldi, map.prn, map.pra, map.add, map.sub, map.mul, map.div, map.cmp,
    map.push, map.pop, map.call, map.ret, map.jmp, map.jeq, map.jne, map.hlt]

/-- The 16 opcode values are distinct (R65). -/
abbrev OpcodeMap.Injective (map : OpcodeMap) : Prop := map.codes.Nodup

/-- The parameters one engine is constructed with. They are fixed for the engine: no step changes them (log 2). "A model
that takes `opcodeMap` as a parameter must require it to be injective" (R65): there is no engine, and so no state, with
another map. -/
structure Config where
  opcodeMap  : OpcodeMap
  pcOverflow : PcOverflow
  /-- What R65 requires of the map; a fact about `opcodeMap`, no further data. -/
  injective  : opcodeMap.Injective
  deriving DecidableEq, Repr

/-- The fault kinds of R150, in the order of their codes. -/
inductive FaultKind where
  /-- The fetched opcode byte is none of the 16 opcodes. -/
  | illegalInstruction
  /-- Reserved; no instruction raises it (R106, log 21). -/
  | unsupportedArithmeticOperation
  /-- DIV by a register that holds 0. -/
  | divisionByZero
  /-- A used register operand above 7. -/
  | registerIndexOutOfRange
  /-- A fetch address or sequential successor past 255, only under `pcOverflow = fault`. -/
  | addressOutOfRange
  deriving DecidableEq, Repr

/-- FREE VALUE (R6 `failExitCode`, D16: OPEN; log 17): the integer behind the exit status of each kind of failure.
Nothing may be proved about a particular value of it. -/
opaque Config.rawFailStatus : FaultKind → Int

/-- Errors of the host, before the engine runs (R160): they have no code of R150 and no engine state. -/
inductive HostError where
  /-- More than one program argument. -/
  | invocationError
  /-- The program source cannot be opened, or its image is longer than the memory (D17, log 18). -/
  | programLoadError
  deriving DecidableEq, Repr

/-- FREE VALUE (R159: nonzero, no value given; log 17): the integer behind the exit status of a host that refuses to start.
Nothing may be proved about a particular value of it. -/
opaque Config.rawRefusalStatus : HostError → Int

end Sys2Proof
end

