-- ==== Sys2Proof/Syntax.lean ====
section
/-! DEFINITION. The closed instruction set of spec 00_scope.md R2: mnemonics and decoded instructions, one constructor
per row of spec/opcode_table.json. -/

namespace Sys2Proof

/-- The 16 mnemonics of R2, in the order of the table of R65. -/
inductive Mnemonic where
  | ldi | prn | pra | add | sub | mul | div | cmp | push | pop | call | ret | jmp | jeq | jne | hlt
  deriving DecidableEq, Repr

/-- Every mnemonic, in table order. -/
def Mnemonic.all : List Mnemonic :=
  [.ldi, .prn, .pra, .add, .sub, .mul, .div, .cmp, .push, .pop, .call, .ret, .jmp, .jeq, .jne, .hlt]

/-- The opcode byte a map gives a mnemonic (R65). -/
def OpcodeMap.code (map : OpcodeMap) : Mnemonic → Byte
  | .ldi  => map.ldi
  | .prn  => map.prn
  | .pra  => map.pra
  | .add  => map.add
  | .sub  => map.sub
  | .mul  => map.mul
  | .div  => map.div
  | .cmp  => map.cmp
  | .push => map.push
  | .pop  => map.pop
  | .call => map.call
  | .ret  => map.ret
  | .jmp  => map.jmp
  | .jeq  => map.jeq
  | .jne  => map.jne
  | .hlt  => map.hlt

/-- A decoded instruction. A register operand stays the WHOLE operand byte: a byte above 7 decodes, and faults only
where the handler uses it (R63, R68, R87). -/
inductive Instr where
  /-- LDI reg, imm8 (R90). -/
  | ldi (r imm8 : Byte)
  /-- PRN reg (R91). -/
  | prn (r : Byte)
  /-- PRA reg (R92). -/
  | pra (r : Byte)
  /-- ADD regA, regB (R101). -/
  | add (rA rB : Byte)
  /-- SUB regA, regB (R102). -/
  | sub (rA rB : Byte)
  /-- MUL regA, regB (R103). -/
  | mul (rA rB : Byte)
  /-- DIV regA, regB (R104). -/
  | div (rA rB : Byte)
  /-- CMP regA, regB (R105). -/
  | cmp (rA rB : Byte)
  /-- PUSH reg (R131). -/
  | push (r : Byte)
  /-- POP reg (R132). -/
  | pop (r : Byte)
  /-- CALL reg (R133). -/
  | call (r : Byte)
  /-- RET (R134). -/
  | ret
  /-- JMP reg (R120). -/
  | jmp (r : Byte)
  /-- JEQ reg (R121). -/
  | jeq (r : Byte)
  /-- JNE reg (R122). -/
  | jne (r : Byte)
  /-- HLT (R88). -/
  | hlt
  deriving DecidableEq, Repr

/-- The mnemonic of an instruction. -/
def Instr.mnemonic : Instr → Mnemonic
  | .ldi _ _ => .ldi
  | .prn _   => .prn
  | .pra _   => .pra
  | .add _ _ => .add
  | .sub _ _ => .sub
  | .mul _ _ => .mul
  | .div _ _ => .div
  | .cmp _ _ => .cmp
  | .push _  => .push
  | .pop _   => .pop
  | .call _  => .call
  | .ret     => .ret
  | .jmp _   => .jmp
  | .jeq _   => .jeq
  | .jne _   => .jne
  | .hlt     => .hlt

end Sys2Proof
end

