-- ==== Sys2Proof/WellFormed.lean ====
section
/-! DEFINITION. What the spec asks of an instruction (register operands in [0,7], 10_state.md R21), and the check of an
opcode map (injective, 30_encoding.md R65) before an engine takes it. Both are decidable. -/

namespace Sys2Proof

/-- The register operands of an instruction, in the order they are checked (R87, R154). -/
def Instr.registerOperands : Instr → List Byte
  | .ldi r _   => [r]
  | .prn r     => [r]
  | .pra r     => [r]
  | .add rA rB => [rA, rB]
  | .sub rA rB => [rA, rB]
  | .mul rA rB => [rA, rB]
  | .div rA rB => [rA, rB]
  | .cmp rA rB => [rA, rB]
  | .push r    => [r]
  | .pop r     => [r]
  | .call r    => [r]
  | .ret       => []
  | .jmp r     => [r]
  | .jeq r     => [r]
  | .jne r     => [r]
  | .hlt       => []

/-- Every register operand names a register (R21, R63; the software obligation of R185 item 4). An instruction that is
not well formed still decodes and runs: it faults where it uses the operand (R87). -/
abbrev Instr.WellFormed (i : Instr) : Prop := ∀ b ∈ i.registerOperands, b.toNat ≤ 7

/-- The parameters with a given opcode map and `pcOverflow`, none where the map is not injective (R65). -/
def Config.ofMap (map : OpcodeMap) (pcOverflow : PcOverflow) : Option Config :=
  if h : map.Injective then some { opcodeMap := map, pcOverflow := pcOverflow, injective := h } else none

end Sys2Proof
end

