-- ==== Sys2Proof/Decode.lean ====
section
/-! DEFINITION. Decoding and encoding (spec 30_encoding.md): formats, lengths, the default opcode map, the total decoder
over any bytes and the encoder. Both take the opcode map as an argument. -/

namespace Sys2Proof

/-- The four formats of R61. -/
inductive Format where
  /-- opcode -/
  | f0
  /-- opcode, register -/
  | f1r
  /-- opcode, register, register -/
  | f2rr
  /-- opcode, register, immediate -/
  | f2ri
  deriving DecidableEq, Repr

/-- The format of each mnemonic (R61). -/
def Mnemonic.format : Mnemonic → Format
  | .ldi => .f2ri
  | .add | .sub | .mul | .div | .cmp => .f2rr
  | .prn | .pra | .push | .pop | .call | .jmp | .jeq | .jne => .f1r
  | .ret | .hlt => .f0

/-- The length of each format in bytes (R60, R61, R69). -/
def Format.length : Format → Nat
  | .f0   => 1
  | .f1r  => 2
  | .f2rr => 3
  | .f2ri => 3

/-- The length of an instruction follows from its opcode alone (R60). -/
def Mnemonic.length (m : Mnemonic) : Nat := m.format.length

/-- The length of a decoded instruction. -/
def Instr.length (i : Instr) : Nat := i.mnemonic.length

/-- The default `opcodeMap` (R65). PRESUMED (log 1): the LS-8 values, from general knowledge, not in the source. -/
def OpcodeMap.ls8 : OpcodeMap where
  ldi  := 0x82#8
  prn  := 0x47#8
  pra  := 0x48#8
  add  := 0xA0#8
  sub  := 0xA1#8
  mul  := 0xA2#8
  div  := 0xA3#8
  cmp  := 0xA7#8
  push := 0x45#8
  pop  := 0x46#8
  call := 0x50#8
  ret  := 0x11#8
  jmp  := 0x54#8
  jeq  := 0x55#8
  jne  := 0x56#8
  hlt  := 0x01#8

/-- `decode(b)` of R66: the mnemonic whose opcode is the whole byte `b`, or none where `b` is illegal. The map of
an engine is injective (`Config`), so that mnemonic is unique; on a bare map that no engine takes, this finds the first
in table order (log 26). -/
def decodeOpcode (map : OpcodeMap) (b : Byte) : Option Mnemonic :=
  Mnemonic.all.find? (fun m => map.code m == b)

/-- The instruction a mnemonic and its operand bytes stand for: `opA` is byte 1, `opB` byte 2 (R62, D2, log 4). A
mnemonic ignores the operand bytes its format does not have. -/
def Mnemonic.instr (m : Mnemonic) (opA opB : Byte) : Instr :=
  match m with
  | .ldi  => .ldi opA opB
  | .prn  => .prn opA
  | .pra  => .pra opA
  | .add  => .add opA opB
  | .sub  => .sub opA opB
  | .mul  => .mul opA opB
  | .div  => .div opA opB
  | .cmp  => .cmp opA opB
  | .push => .push opA
  | .pop  => .pop opA
  | .call => .call opA
  | .ret  => .ret
  | .jmp  => .jmp opA
  | .jeq  => .jeq opA
  | .jne  => .jne opA
  | .hlt  => .hlt

/-- Why bytes are no instruction. -/
inductive DecodeError where
  /-- There is no byte to decode. -/
  | noBytes
  /-- The first byte is no opcode (R67). -/
  | illegalOpcode (b : Byte)
  /-- The bytes end before the operands of this mnemonic do. -/
  | missingOperands (m : Mnemonic)
  deriving DecidableEq, Repr

/-- The operand bytes of a known mnemonic, and the bytes that follow the instruction. -/
def decodeOperands (m : Mnemonic) (bytes : List Byte) : Except DecodeError (Instr × List Byte) :=
  match m.format, bytes with
  | .f0,   rest           => .ok (m.instr 0#8 0#8, rest)
  | .f1r,  a :: rest      => .ok (m.instr a 0#8, rest)
  | .f2rr, a :: b :: rest => .ok (m.instr a b, rest)
  | .f2ri, a :: b :: rest => .ok (m.instr a b, rest)
  | _,     _              => .error (.missingOperands m)

/-- The decoder, total on any bytes: the instruction at the head and the bytes after it (R60, R62, R66). -/
def decode (map : OpcodeMap) : List Byte → Except DecodeError (Instr × List Byte)
  | [] => .error .noBytes
  | b :: rest =>
    match decodeOpcode map b with
    | none   => .error (.illegalOpcode b)
    | some m => decodeOperands m rest

/-- The operand bytes of an instruction, in the order of R62. -/
def Instr.operandBytes : Instr → List Byte
  | .ldi r imm8 => [r, imm8]
  | .prn r      => [r]
  | .pra r      => [r]
  | .add rA rB  => [rA, rB]
  | .sub rA rB  => [rA, rB]
  | .mul rA rB  => [rA, rB]
  | .div rA rB  => [rA, rB]
  | .cmp rA rB  => [rA, rB]
  | .push r     => [r]
  | .pop r      => [r]
  | .call r     => [r]
  | .ret        => []
  | .jmp r      => [r]
  | .jeq r      => [r]
  | .jne r      => [r]
  | .hlt        => []

/-- The encoder: the opcode byte, then the operand bytes (R61, R62). -/
def encode (map : OpcodeMap) (i : Instr) : List Byte :=
  map.code i.mnemonic :: i.operandBytes

/-- The three bytes (the longest length) of a word numbered as spec/opcode_table.json numbers it: the first byte is bits
7..0, the second bits 15..8. The bits from `nbits` on are 0. -/
def tableBytes (nbits w : Nat) : List Byte :=
  let v := w % 2 ^ nbits
  [BitVec.ofNat 8 v, BitVec.ofNat 8 (v / 256), BitVec.ofNat 8 (v / 65536)]

/-- The instruction the decoder reads from a table word under the default map. -/
def decodeTableWord (nbits w : Nat) : Option Instr :=
  match decode OpcodeMap.ls8 (tableBytes nbits w) with
  | .ok (i, _) => some i
  | .error _   => none

/-- The name of a mnemonic in assembler syntax (R71, R72). -/
def Mnemonic.name : Mnemonic → String
  | .ldi  => "LDI"
  | .prn  => "PRN"
  | .pra  => "PRA"
  | .add  => "ADD"
  | .sub  => "SUB"
  | .mul  => "MUL"
  | .div  => "DIV"
  | .cmp  => "CMP"
  | .push => "PUSH"
  | .pop  => "POP"
  | .call => "CALL"
  | .ret  => "RET"
  | .jmp  => "JMP"
  | .jeq  => "JEQ"
  | .jne  => "JNE"
  | .hlt  => "HLT"

/-- A register in assembler syntax, `R0` to `R7` (R71); a byte above 7 is written the same way (log 30). -/
def registerName (b : Byte) : String := "R" ++ toString b.toNat

/-- An instruction in the assembler syntax of R71: mnemonic, then operands separated by commas (log 30). -/
def Instr.assembly (i : Instr) : String :=
  match i with
  | .ldi r imm8 => i.mnemonic.name ++ " " ++ registerName r ++ "," ++ toString imm8.toNat
  | _ =>
    match i.registerOperands with
    | [] => i.mnemonic.name
    | r :: rs => i.mnemonic.name ++ " " ++ rs.foldl (fun text q => text ++ "," ++ registerName q) (registerName r)

end Sys2Proof
end

