-- ==== Sys2Proof/Machine/Parameters.lean ====
section
/-! DEFINITION. The parameter values of spec 00_scope.md R6 and the reset values of 10_state.md R35, as named constants
that State.reset reads. -/

namespace Sys2Proof.Machine

/-- `MEMSIZE`: 256 bytes of memory (R6, R40). -/
def memSize : Nat := 256

/-- `SP_INDEX`: register 7 is the stack pointer (R6, R22). -/
def spIndex : Fin 8 := 7

/-- `SP_INIT`: the reset value of the stack pointer (R6, R35). -/
def spInit : Byte := 0xF4#8

/-- `PC_INIT`: the reset value of the program counter (R6, R35, R181). -/
def pcInit : Byte := 0x00#8

/-- `LOAD_BASE`: the address of the first image byte (R6, R180). -/
def loadBase : Byte := 0x00#8

/-- The reset value of `x[0]` to `x[6]` (R35). -/
def regInit : Byte := 0x00#8

/-- The reset value of each of the flags E, L, G. DESIGN CHOICE of the spec (R35, D7, log 8). -/
def flagInit : Bool := false

/-- The reset value of `ir`. DESIGN CHOICE of the spec (R35, D8, log 9). -/
def irInit : Byte := 0x00#8

/-- What a byte of memory that nothing has written reads as: memory is zero-filled (R31, R41, log 27). -/
def blankByte : Byte := 0x00#8

/-- The default parameters (R6): the LS-8 opcode map (PRESUMED, log 1) and `pcOverflow = wrap` (DESIGN CHOICE of the
spec, D3, log 3). -/
def defaultConfig : Config := { opcodeMap := OpcodeMap.ls8, pcOverflow := .wrap, injective := by decide }

end Sys2Proof.Machine
end

