-- ==== Sys2Proof/Machine/State.lean ====
section
/-! DEFINITION. The state of the engine (spec 10_state.md R20), its reset value (R35), and the reasons a step can stop. -/

namespace Sys2Proof.Machine

/-- The three independent flags of R26. No packed layout exists (R27, D25, log 31). -/
structure Flags where
  /-- Equal. -/
  E : Bool
  /-- Less. -/
  L : Bool
  /-- Greater. -/
  G : Bool
  deriving DecidableEq, Repr

/-- What a cycle raised: the `kind` of R150 together with the `detail` R151 gives that kind. -/
inductive FaultCause where
  /-- Code 1, no detail. -/
  | illegalInstruction
  /-- Code 2, reserved: never raised (R106, log 21). -/
  | unsupportedArithmeticOperation
  /-- Code 3; the index of the divisor register. -/
  | divisionByZero (divisor : Fin 8)
  /-- Code 4; the offending operand byte. -/
  | registerIndexOutOfRange (operand : Byte)
  /-- Code 5; the address past 255. -/
  | addressOutOfRange (addr : Nat)
  deriving DecidableEq, Repr

/-- The fault record of R151: kind and detail (`cause`), the address of the faulting instruction, its opcode byte. -/
structure FaultRecord where
  cause : FaultCause
  pc    : Byte
  ir    : Byte
  deriving DecidableEq, Repr

/-- The run state of R29. -/
inductive RunState where
  /-- The only state from which another cycle is taken. -/
  | running
  /-- The normal end, reached through HLT alone (R88). -/
  | halted
  /-- The end through a fault (R150). -/
  | failed (record : FaultRecord)
  deriving DecidableEq, Repr

/-- The kind of an output event (R30). -/
inductive OutKind where
  /-- Appended by PRN. -/
  | numeric
  /-- Appended by PRA. -/
  | character
  deriving DecidableEq, Repr

/-- One event of the output channel (R30). -/
structure OutEvent where
  kind  : OutKind
  value : Byte
  deriving DecidableEq, Repr

/-- Memory as the cells that differ from a blank byte, addresses strictly rising (log 27); `Memory.wf` in Ops.lean. -/
abbrev Memory := List Host.Cell

/-- The state of one engine (R20), and the parameters it was constructed with (`cfg`, log 2). -/
structure State where
  /-- The parameters of R6; no step changes them. Not architectural state of the spec. -/
  cfg   : Config
  /-- The general registers; `x[7]` is the stack pointer (R21, R22). -/
  x     : Vector Byte 8
  /-- The program counter (R24). -/
  pc    : Byte
  /-- The flags E, L, G (R26). -/
  flags : Flags
  /-- The instruction register (R28). -/
  ir    : Byte
  /-- The 256 bytes of memory (R31, R40). -/
  mem   : Memory
  /-- The run state (R29). -/
  run   : RunState
  /-- The output channel, oldest event first (R30). -/
  out   : List OutEvent
  deriving DecidableEq, Repr

/-- Why the machine has no step. -/
inductive Fault where
  /-- Raised by `step` alone, in a state whose run has ended through HLT: "the engine has no step" (R80). Safe: the
  state is final (log 24). -/
  | halted
  /-- Raised by `step` alone, in a state whose run has ended in Failed with this record: "the engine has no step" (R80).
  Safe: the state is final (log 24). -/
  | failed (record : FaultRecord)
  deriving DecidableEq, Repr

/-- Why the model gives an instruction no meaning. -/
inductive Refusal where
  /-- Raised by an arm of `exec` whose instruction has no meaning yet. No arm raises it now. Safe. -/
  | notModelled (mnemonic : String)
  deriving DecidableEq, Repr

/-- A newly constructed engine with given parameters (R180 `construct`, R158). -/
def State.construct (cfg : Config) : State where
  cfg   := cfg
  x     := #v[regInit, regInit, regInit, regInit, regInit, regInit, regInit, spInit]
  pc    := pcInit
  flags := { E := flagInit, L := flagInit, G := flagInit }
  ir    := irInit
  mem   := []
  run   := .running
  out   := []

/-- The machine right after reset, with the default parameters (R35, R180). -/
def State.reset : State := State.construct defaultConfig

end Sys2Proof.Machine
end

