-- ==== Sys2Proof/Machine/Ops.lean ====
section
/-! DEFINITION. The named operations over registers, memory, output and the program counter, and the ONE way a fault is
taken (spec 00_scope.md R8, 20_memory.md, 40_engine.md R85 and R86, 60_exceptions.md R150 to R154). -/

namespace Sys2Proof.Machine

/-- The outcome type of this machine's steps. -/
abbrev Result := Host.Outcome State Fault Refusal

/-! ### Values -/

/-- `wrap8(v)` of R8: the byte `v mod 256` of an exact integer. -/
def wrap8 (v : Int) : Byte := BitVec.ofInt 8 v

/-! ### Memory -/

/-- The byte at an address; an unlisted address reads as the blank byte (R41). -/
def Memory.read (m : Memory) (a : Nat) : Byte :=
  match m with
  | [] => blankByte
  | c :: rest => if c.1 = a then c.2 else Memory.read rest a

/-- Make an address unlisted. -/
def Memory.erase (m : Memory) (a : Nat) : Memory := m.filter (fun c => c.1 != a)

/-- List a byte at an address before the first higher address. -/
def Memory.insert (m : Memory) (a : Nat) (v : Byte) : Memory :=
  match m with
  | [] => [(a, v)]
  | c :: rest => if a < c.1 then (a, v) :: c :: rest else c :: Memory.insert rest a v

/-- Store a byte, keeping the canonical form: a blank byte is not listed. -/
def Memory.write (m : Memory) (a : Nat) (v : Byte) : Memory :=
  if v = blankByte then m.erase a else (m.erase a).insert a v

/-- The canonical form: addresses strictly rising and inside the address space (R40), no listed byte blank. -/
abbrev Memory.wf (m : Memory) : Prop :=
  m.Pairwise (fun c d => c.1 < d.1) ∧ ∀ c ∈ m, c.1 < memSize ∧ c.2 ≠ blankByte

/-- `MemRead(addr, 1)` (R8). -/
def State.readByte (s : State) (a : Byte) : Byte := s.mem.read a.toNat

/-- `MemWrite(addr, 1, v)` (R8). -/
def State.writeByte (s : State) (a v : Byte) : State := { s with mem := s.mem.write a.toNat v }

/-- Bytes stored at rising addresses from `a`, mod 256: the loader's write (R180). -/
def State.writeBytes (s : State) (a : Byte) (bytes : List Byte) : State :=
  match bytes with
  | [] => s
  | v :: rest => (s.writeByte a v).writeBytes (a + 1#8) rest

/-! ### Registers, flags, instruction register, run state, output -/

/-- `x[i]` (R8, R21): no register is hardwired. -/
def State.getReg (s : State) (i : Fin 8) : Byte := s.x[i]

/-- `x[i] <- v` (R8, R21). -/
def State.setReg (s : State) (i : Fin 8) (v : Byte) : State := { s with x := s.x.set i v }

/-- The stack pointer is `x[7]` and nothing more (R22). -/
def State.sp (s : State) : Byte := s.getReg spIndex

/-- `pc <- target` (R8). -/
def State.setPc (s : State) (target : Byte) : State := { s with pc := target }

/-- `(E, L, G) <- f`. -/
def State.setFlags (s : State) (f : Flags) : State := { s with flags := f }

/-- `ir <- b`: the fetch is the only writer (R28). -/
def State.setIr (s : State) (b : Byte) : State := { s with ir := b }

/-- `run <- r` (R29). -/
def State.setRun (s : State) (r : RunState) : State := { s with run := r }

/-- `emit(kind, v)`: append one event to the output channel (R8, R30). It never waits or fails (D26, log 15). -/
def State.emit (s : State) (kind : OutKind) (v : Byte) : State := { s with out := s.out ++ [⟨kind, v⟩] }

/-! ### Stack pointer moves (R136: no guard, SP wraps mod 256; D4, log 5) -/

/-- `x[7] <- wrap8(x[7] - 1)`. -/
def State.decSp (s : State) : State := s.setReg spIndex (wrap8 (s.sp.toNat - 1))

/-- `x[7] <- wrap8(x[7] + 1)`. -/
def State.incSp (s : State) : State := s.setReg spIndex (wrap8 (s.sp.toNat + 1))

/-! ### Faults -/

/-- The kind of a cause (R150). -/
def FaultCause.kind : FaultCause → FaultKind
  | .illegalInstruction             => .illegalInstruction
  | .unsupportedArithmeticOperation => .unsupportedArithmeticOperation
  | .divisionByZero _               => .divisionByZero
  | .registerIndexOutOfRange _      => .registerIndexOutOfRange
  | .addressOutOfRange _            => .addressOutOfRange

/-- The `detail` of a cause as a number, none where R151 gives none. -/
def FaultCause.detail : FaultCause → Option Nat
  | .illegalInstruction              => none
  | .unsupportedArithmeticOperation  => none
  | .divisionByZero divisor          => some divisor.val
  | .registerIndexOutOfRange operand => some operand.toNat
  | .addressOutOfRange addr          => some addr

/-- The numeric codes of R150 (D13, log 14). -/
def faultCode : FaultKind → Nat
  | .illegalInstruction             => 1
  | .unsupportedArithmeticOperation => 2
  | .divisionByZero                 => 3
  | .registerIndexOutOfRange        => 4
  | .addressOutOfRange              => 5

/-- TAKING A FAULT (R85, R151, R152): the run ends in Failed with the record of this cause; `ir` was written by the fetch,
and nothing else changes. There is no handler and no return from a fault (R153). -/
def State.raise (s : State) (cause : FaultCause) : State :=
  s.setRun (.failed { cause := cause, pc := s.pc, ir := s.ir })

/-- How a handler ends a cycle (R85, log 13): one that completes commits all its writes together, one that raises
commits none of them. -/
def State.complete (s : State) (handler : Except FaultCause State) : Result :=
  match handler with
  | .ok t        => .next t
  | .error cause => .next (s.raise cause)

/-! ### Addresses past 255 (R86) -/

/-- The address `k` past `pc`, by the engine's `pcOverflow` (R86, log 3). -/
def State.advance (s : State) (k : Nat) : Except FaultCause Byte :=
  match s.cfg.pcOverflow with
  | .wrap  => .ok (wrap8 (s.pc.toNat + k))
  | .fault =>
    if s.pc.toNat + k > 255 then .error (.addressOutOfRange (s.pc.toNat + k))
    else .ok (BitVec.ofNat 8 (s.pc.toNat + k))

/-- `fetchAddr(k)`: the address of the k-th byte of the current instruction (R86). -/
def State.fetchAddr (s : State) (k : Nat) : Except FaultCause Byte := s.advance k

/-- `nextPC(n)`: the sequential successor, and CALL's return address (R86). -/
def State.nextPC (s : State) (n : Nat) : Except FaultCause Byte := s.advance n

end Sys2Proof.Machine
end

