-- ==== Sys2Proof/Machine/Flags.lean ====
section
/-! DEFINITION. The one flag computation of the engine (spec 42_alu.md R105). -/

namespace Sys2Proof.Machine

/-- The flag pattern of comparing two unsigned bytes (R105): the old flags are never read. -/
def compareFlags (p q : Byte) : Flags :=
  if p.toNat = q.toNat then { E := true, L := false, G := false }
  else if p.toNat < q.toNat then { E := false, L := true, G := false }
  else { E := false, L := false, G := true }

/-- CMP is the only writer of the flags and writes all three at once (R26). -/
def State.compare (s : State) (p q : Byte) : State := s.setFlags (compareFlags p q)

end Sys2Proof.Machine
end

