-- ==== Sys2Proof/Machine/Operands.lean ====
section
/-! DEFINITION. Every operand form: a register-index byte, checked where it is used (spec 30_encoding.md R63, 40_engine.md
R87); an immediate byte, taken unchanged (R63); the implicit stack operands (44_stack.md R130). -/

namespace Sys2Proof.Machine

/-- The operand byte that names a register (R63). -/
def regByte (r : Fin 8) : Byte := BitVec.ofNat 8 r.val

/-- `reg(b)` of R87: the register the whole byte names, or RegisterIndexOutOfRange (D5, log 6). -/
def reg (b : Byte) : Except FaultCause (Fin 8) :=
  if h : b.toNat ≤ 7 then .ok ⟨b.toNat, Nat.lt_succ_of_le h⟩ else .error (.registerIndexOutOfRange b)

/-- The value of an immediate operand: the byte, not extended, scaled or shifted (R63). -/
def imm (b : Byte) : Byte := b

/-- The implicit source of POP and RET: the byte on top of the stack (R130, R132, R134). -/
def State.stackTop (s : State) : Byte := s.readByte s.sp

/-- The address the next push stores at: SP after its decrement (R42, R131). -/
def State.pushAddr (s : State) : Byte := s.decSp.sp

/-- A push of a value that is computed AFTER the decrement of SP (R131, R133; D10, log 11). -/
def State.push (s : State) (value : State → Byte) : State :=
  s.decSp.writeByte s.pushAddr (value s.decSp)

end Sys2Proof.Machine
end

