-- ==== Sys2Proof/Machine/Alu.lean ====
section
/-! DEFINITION. The arithmetic/compare unit: ADD, SUB, MUL, DIV, CMP (spec 42_alu.md R100 to R105). Values are computed
as exact integers and narrowed by `wrap8` at the end (00_scope.md R9). -/

namespace Sys2Proof.Machine

/-- R101: the sum mod 256. -/
def aluAdd (p q : Byte) : Byte := wrap8 ((p.toNat : Int) + q.toNat)

/-- R102: the mathematical difference mod 256. -/
def aluSub (p q : Byte) : Byte := wrap8 ((p.toNat : Int) - q.toNat)

/-- R103: the low 8 bits of the product. -/
def aluMul (p q : Byte) : Byte := wrap8 ((p.toNat : Int) * q.toNat)

/-- R104: the unsigned integer quotient, for a divisor that is not 0. -/
def aluDiv (p q : Byte) : Byte := BitVec.ofNat 8 (p.toNat / q.toNat)

/-- What ADD, SUB and MUL share: combine two registers into the first, then go on (R100). -/
def State.arith (s : State) (op : Byte → Byte → Byte) (rA rB : Byte) : Result :=
  s.complete do
    let a ← reg rA
    let b ← reg rB
    let next ← s.nextPC 3
    .ok <| (s.setReg a (op (s.getReg a) (s.getReg b))).setPc next

/-- ADD (R101). -/
def execAdd (rA rB : Byte) (s : State) : Result := s.arith aluAdd rA rB

/-- SUB (R102). -/
def execSub (rA rB : Byte) (s : State) : Result := s.arith aluSub rA rB

/-- MUL (R103). -/
def execMul (rA rB : Byte) (s : State) : Result := s.arith aluMul rA rB

/-- The divisor check of R104: DivisionByZero names the divisor register. -/
def State.checkDivisor (s : State) (b : Fin 8) : Except FaultCause Unit :=
  if s.getReg b = 0#8 then .error (.divisionByZero b) else .ok ()

/-- DIV (R104): both registers are checked first, then the divisor, then the successor (R154). -/
def execDiv (rA rB : Byte) (s : State) : Result :=
  s.complete do
    let a ← reg rA
    let b ← reg rB
    s.checkDivisor b
    let next ← s.nextPC 3
    .ok <| (s.setReg a (aluDiv (s.getReg a) (s.getReg b))).setPc next

/-- CMP (R105). -/
def execCmp (rA rB : Byte) (s : State) : Result :=
  s.complete do
    let a ← reg rA
    let b ← reg rB
    let next ← s.nextPC 3
    .ok <| (s.compare (s.getReg a) (s.getReg b)).setPc next

end Sys2Proof.Machine
end

