-- ==== Sys2Proof/Machine/Branch.lean ====
section
/-! DEFINITION. Branching: JMP, JEQ, JNE (spec 43_branch.md R120 to R123). -/

namespace Sys2Proof.Machine

/-- What the jumps share: a taken jump checks its operand and goes to the register's value; one that is not taken goes on
and never checks it (R121, R122; D6, log 7). -/
def State.branch (s : State) (taken : Bool) (r : Byte) : Result :=
  s.complete <|
    if taken then do
      let t ← reg r
      .ok <| s.setPc (s.getReg t)
    else do
      let next ← s.nextPC 2
      .ok <| s.setPc next

/-- JMP (R120): always taken; it never evaluates the successor. -/
def execJmp (r : Byte) (s : State) : Result := s.branch true r

/-- JEQ (R121): taken iff E = 1. -/
def execJeq (r : Byte) (s : State) : Result := s.branch s.flags.E r

/-- JNE (R122): taken iff E = 0. -/
def execJne (r : Byte) (s : State) : Result := s.branch (!s.flags.E) r

end Sys2Proof.Machine
end

