-- ==== Sys2Proof/Machine/Control.lean ====
section
/-! DEFINITION. HLT (spec 40_engine.md R88). -/

namespace Sys2Proof.Machine

/-- HLT (R88): the run ends; `pc` keeps the address of the HLT (D9, log 10). -/
def execHlt (s : State) : Result := s.complete (.ok (s.setRun .halted))

end Sys2Proof.Machine
end

