-- ==== Sys2Proof/Machine/DataOutput.lean ====
section
/-! DEFINITION. Load-immediate and output instructions: LDI, PRN, PRA (spec 41_data_output.md R90 to R92). -/

namespace Sys2Proof.Machine

/-- What PRN and PRA share: emit the register's byte under a kind, then go on (R91, R92). -/
def State.print (s : State) (kind : OutKind) (r : Byte) : Result :=
  s.complete do
    let src ← reg r
    let next ← s.nextPC 2
    .ok <| (s.emit kind (s.getReg src)).setPc next

/-- LDI (R90). -/
def execLdi (r imm8 : Byte) (s : State) : Result :=
  s.complete do
    let d ← reg r
    let next ← s.nextPC 3
    .ok <| (s.setReg d (imm imm8)).setPc next

/-- PRN (R91). -/
def execPrn (r : Byte) (s : State) : Result := s.print .numeric r

/-- PRA (R92). -/
def execPra (r : Byte) (s : State) : Result := s.print .character r

end Sys2Proof.Machine
end

