-- ==== Sys2Proof/Machine/Stack.lean ====
section
/-! DEFINITION. Stack and subroutines: PUSH, POP, CALL, RET (spec 44_stack.md R130 to R136). Writes happen in the order
of the rules' text, also where R7 is the operand (D10, log 11). -/

namespace Sys2Proof.Machine

/-- PUSH (R131): the register is read after the decrement. -/
def execPush (r : Byte) (s : State) : Result :=
  s.complete do
    let src ← reg r
    let next ← s.nextPC 2
    .ok <| (s.push (fun t => t.getReg src)).setPc next

/-- POP (R132): if the destination is R7, the loaded value is incremented. -/
def execPop (r : Byte) (s : State) : Result :=
  s.complete do
    let d ← reg r
    let next ← s.nextPC 2
    .ok <| (s.setReg d s.stackTop).incSp.setPc next

/-- CALL (R133): the target is read after the push. -/
def execCall (r : Byte) (s : State) : Result :=
  s.complete do
    let t ← reg r
    let ret ← s.nextPC 2
    let pushed := s.push (fun _ => ret)
    .ok <| pushed.setPc (pushed.getReg t)

/-- RET (R134): it has no operand and cannot fault. -/
def execRet (s : State) : Result :=
  s.complete (.ok (s.setPc s.stackTop).incSp)

end Sys2Proof.Machine
end

