-- ==== Sys2Proof/Machine/Fetch.lean ====
section
/-! DEFINITION. Fetch, decode and operand fetch of one cycle (spec 40_engine.md R81 to R83). -/

namespace Sys2Proof.Machine

/-- `ir <- MemRead(pc, 1)`: always committed, even if the cycle then faults (R81). -/
def State.fetchOpcode (s : State) : State := s.setIr (s.readByte s.pc)

/-- The k-th byte of the current instruction (R83). -/
def State.fetchByte (s : State) (k : Nat) : Except FaultCause Byte := do
  let a ← s.fetchAddr k
  .ok <| s.readByte a

/-- The operand bytes `opA`, `opB` of R83. Exactly the bytes the format has are fetched (D24, log 23); a latch the format
does not have is given as 0 and no handler reads it (`Mnemonic.instr`). -/
def State.fetchOperands (s : State) : Format → Except FaultCause (Byte × Byte)
  | .f0 => .ok (0#8, 0#8)
  | .f1r => do
    let opA ← s.fetchByte 1
    .ok (opA, 0#8)
  | .f2rr => do
    let opA ← s.fetchByte 1
    let opB ← s.fetchByte 2
    .ok (opA, opB)
  | .f2ri => do
    let opA ← s.fetchByte 1
    let opB ← s.fetchByte 2
    .ok (opA, opB)

/-- Decode `ir` and fetch the operands, in a state whose `ir` the fetch has written (R82, R83). -/
def State.fetchInstr (s : State) : Except FaultCause Instr :=
  match decodeOpcode s.cfg.opcodeMap s.ir with
  | none => .error .illegalInstruction
  | some m => do
    let ops ← s.fetchOperands m.format
    .ok <| m.instr ops.1 ops.2

/-- The three bytes from `pc` on, mod 256: the longest an instruction can be. -/
def State.window (s : State) : List Byte :=
  [s.readByte s.pc, s.readByte (s.pc + 1#8), s.readByte (s.pc + 2#8)]

end Sys2Proof.Machine
end

