-- ==== Sys2Proof/Machine/Step.lean ====
section
/-! DEFINITION. One cycle of the engine (spec 40_engine.md R80 to R84). -/

namespace Sys2Proof.Machine

/-- One cycle: only from Running (R80); fetch, decode, operand fetch, then the handler. A fault is a next state whose run
has Failed; in Halted and Failed the engine has no step (log 24). -/
def step (s : State) : Host.Outcome State Fault Refusal :=
  match s.run with
  | .halted => .fault .halted
  | .failed record => .fault (.failed record)
  | .running =>
    match s.fetchOpcode.fetchInstr with
    | .ok i => exec i s.fetchOpcode
    | .error cause => .next (s.fetchOpcode.raise cause)

/-- Place a table word where the next cycle fetches its instruction, and let that cycle be taken (log 18). -/
def State.withFetchWord (s : State) (nbits w : Nat) : State :=
  (s.writeBytes s.pc (tableBytes nbits w)).setRun .running

end Sys2Proof.Machine
end

