-- ==== Sys2Proof/Machine/HostInterface.lean ====
section
/-! DEFINITION. The host's side of the interface (spec 60_exceptions.md R158 to R160, 41_data_output.md R93,
70_reset_and_hazards.md R180 to R183, 30_encoding.md R73). No cycle of the engine calls anything here. -/

namespace Sys2Proof.Machine

/-! ### Program text and image -/

/-- A blank character of a program line (log 28). -/
def isBlank (c : Char) : Bool := c == ' ' || c == '\t' || c == '\r'

/-- A program line without its `#` comment and its surrounding blanks (R73, log 28). -/
def lineText (line : List Char) : List Char :=
  (((line.takeWhile (· != '#')).dropWhile isBlank).reverse.dropWhile isBlank).reverse

/-- An 8-digit binary literal, most significant digit first (R73). -/
def binaryByte (text : List Char) : Option Byte :=
  if text.length = 8 ∧ text.all (fun c => c == '0' || c == '1') then
    some (BitVec.ofNat 8 (text.foldl (fun v c => 2 * v + if c == '1' then 1 else 0) 0))
  else none

/-- The image of a program text: one byte a line, every other line skipped (R73). -/
def imageOfText (lines : List (List Char)) : List Byte :=
  lines.filterMap (fun line => binaryByte (lineText line))

/-- The built-in 6-byte demonstration program: LDI R0,8; PRN R0; HLT (R183). -/
def demoImage (map : OpcodeMap) : List Byte :=
  encode map (.ldi 0x00#8 0x08#8) ++ encode map (.prn 0x00#8) ++ encode map .hlt

/-- Which image the host runs (R160, R183): the built-in one with no argument, the file's with one (none where it cannot
be opened), an error with more. -/
def chooseImage (map : OpcodeMap) (arguments : List (Option (List Byte))) : Except HostError (List Byte) :=
  match arguments with
  | []           => .ok (demoImage map)
  | [some image] => .ok image
  | [none]       => .error .programLoadError
  | _            => .error .invocationError

/-- The loader's contract (R180 `load`): the image at addresses 0, 1, ... in order; an image longer than the memory is
refused (D17). -/
def loadImage (image : List Byte) (s : State) : Except HostError State :=
  if image.length ≤ memSize then .ok (s.writeBytes loadBase image) else .error .programLoadError

/-! ### The end of a run -/

/-- What the engine gives back at the end of a run (R158 `end`). -/
inductive EndReport where
  | halted
  | failed (record : FaultRecord)
  deriving DecidableEq, Repr

/-- The end of a run, none while it is Running (R89, R158). -/
def State.report (s : State) : Option EndReport :=
  match s.run with
  | .running       => none
  | .halted        => some .halted
  | .failed record => some (.failed record)

/-- `failExitCode` (R6, R159): any nonzero integer for each kind, a free value (D16, log 17). -/
def failExitCode (k : FaultKind) : Int :=
  if Config.rawFailStatus k = 0 then 1 else Config.rawFailStatus k

/-- The nonzero exit status of a host that refuses to start the engine (R159, R160), a free value (log 17). -/
def refusalExitCode (e : HostError) : Int :=
  if Config.rawRefusalStatus e = 0 then 1 else Config.rawRefusalStatus e

/-- The process exit status the host maps the end of a run to (R159). -/
def State.exitStatus (s : State) : Option Int :=
  match s.run with
  | .running       => none
  | .halted        => some 0
  | .failed record => some (failExitCode record.cause.kind)

/-- How a host that prints renders an event (R93; D14, D15, log 16): a decimal numeral, or the character whose code point
is the value. -/
def OutEvent.text (e : OutEvent) : List Char :=
  match e.kind with
  | .numeric   => Nat.toDigits 10 e.value.toNat
  | .character => [Char.ofNat e.value.toNat]

/-! ### A session of the host with one engine (R158) -/

/-- Where the host and its engine stand. -/
inductive Session where
  /-- No engine exists. -/
  | absent
  /-- Constructed, no image loaded. -/
  | constructed (s : State)
  /-- Loaded, not started. -/
  | loaded (s : State)
  /-- Started: Running, or at its end. -/
  | started (s : State)
  /-- The host refused to start, or ended the process. -/
  | closed
  deriving DecidableEq, Repr

/-- The interactions of R158 (log 29). -/
inductive HostMove where
  | construct (cfg : Config)
  | load (image : List Byte)
  | run
  | output
  | finish
  | abort
  deriving DecidableEq, Repr

/-- What the engine gives back (R158). -/
inductive HostAnswer where
  | nothing
  | events (out : List OutEvent)
  /-- How the run ended, and the whole state, which the host may now read. -/
  | ended (report : EndReport) (final : State)
  | refused (error : HostError)
  deriving DecidableEq, Repr

/-- One move of the host, none where the interface has no such move there: the image is loaded once and before the run,
the run is started once, and during it the host changes nothing (R36, R158). -/
def hostMove (move : HostMove) (session : Session) : Option (HostAnswer × Session) :=
  match move, session with
  | .construct cfg, .absent => some (.nothing, .constructed (State.construct cfg))
  | .load image, .constructed s =>
    match loadImage image s with
    | .ok t        => some (.nothing, .loaded t)
    | .error error => some (.refused error, .closed)
  | .run, .loaded s     => some (.nothing, .started s)
  | .output, .started s => some (.events s.out, .started s)
  | .finish, .started s => s.report.map (fun report => (.ended report s, .started s))
  | .abort, _           => some (.nothing, .closed)
  | _, _                => none

/-- One cycle of a started engine, with the events it appends (R158 `output`); none where the engine has no step. -/
def engineMove (session : Session) : Option (List OutEvent × Session) :=
  match session with
  | .started s =>
    match step s with
    | .next t    => some (t.out.drop s.out.length, .started t)
    | .fault _   => none
    | .refused _ => none
  | _ => none

end Sys2Proof.Machine
end

