-- ==== Sys2Proof/Safety.lean ====
section
/-! DEFINITION. The terms claims are stated in: what a safe run is, the invariants of the engine, and the vocabulary of
frames (what an instruction leaves unchanged). -/

namespace Sys2Proof.Machine

/-! ### Runs -/

/-- `t` is reached from `s` by cycles of the engine (R89). -/
inductive Reaches (s : State) : State → Prop where
  | here : Reaches s s
  | cycle {t u : State} : Reaches s t → step t = .next u → Reaches s u

/-- The run has not failed. -/
def State.NotFailed (s : State) : Prop := ∀ record, s.run ≠ .failed record

/-- A safe run: no state it reaches has failed. -/
def SafeRun (s : State) : Prop := ∀ t, Reaches s t → t.NotFailed

/-- An invariant: every cycle keeps it, from every state that meets it. -/
def KeptByStep (inv : State → Prop) : Prop := ∀ s t, inv s → step s = .next t → inv t

/-! ### Invariants -/

/-- At most one of E, L, G is set (R27: none before the first CMP, exactly one after). -/
def Flags.AtMostOne (f : Flags) : Prop :=
  ¬ (f.E = true ∧ f.L = true) ∧ ¬ (f.E = true ∧ f.G = true) ∧ ¬ (f.L = true ∧ f.G = true)

/-- Exactly one of E, L, G is set. -/
def Flags.ExactlyOne (f : Flags) : Prop :=
  f.AtMostOne ∧ (f.E = true ∨ f.L = true ∨ f.G = true)

/-- What a fault record says holds of the state it ended in (R150, R151). -/
def FaultCause.Explained (cause : FaultCause) (s : State) : Prop :=
  match cause with
  | .illegalInstruction              => ∀ m, s.cfg.opcodeMap.code m ≠ s.ir
  | .unsupportedArithmeticOperation  => False
  | .divisionByZero divisor          => s.ir = s.cfg.opcodeMap.div ∧ s.getReg divisor = 0#8
  | .registerIndexOutOfRange operand => 7 < operand.toNat
  | .addressOutOfRange addr          => s.cfg.pcOverflow = .fault ∧ 256 ≤ addr ∧ addr ≤ 258

/-- The end of a run is what the state says it is: a failed run has a record of this `pc` and `ir` whose cause holds
(R151), a halted run stands on its HLT (R88), and in both `ir` is the byte at `pc` (R81). -/
def State.EndExplained (s : State) : Prop :=
  match s.run with
  | .running       => True
  | .halted        => s.ir = s.readByte s.pc ∧ s.ir = s.cfg.opcodeMap.hlt
  | .failed record =>
    s.ir = s.readByte s.pc ∧ record.pc = s.pc ∧ record.ir = s.ir ∧ record.cause.Explained s

/-- The invariant of the engine. -/
def State.Inv (s : State) : Prop := s.mem.wf ∧ s.flags.AtMostOne ∧ s.EndExplained

/-! ### Frames -/

/-- The sequential successor `n` bytes on exists: always under `wrap`, and under `fault` unless it passes 255 (R86). -/
def State.Continues (s : State) (n : Nat) : Prop :=
  s.cfg.pcOverflow = .wrap ∨ s.pc.toNat + n ≤ 255

/-- `t.pc` is `n` bytes past `s.pc`, mod 256. -/
def PcAdvanced (s t : State) (n : Nat) : Prop := t.pc.toNat = (s.pc.toNat + n) % 256

/-- Every general register but those listed holds what it held. -/
def SameRegsExcept (s t : State) (written : List (Fin 8)) : Prop :=
  ∀ q, q ∉ written → t.getReg q = s.getReg q

/-- Every byte of memory reads as before. -/
def SameMemory (s t : State) : Prop := ∀ a : Byte, t.readByte a = s.readByte a

/-- Every byte of memory but the one at `stored` reads as before. -/
def SameMemoryExcept (s t : State) (stored : Byte) : Prop := ∀ a : Byte, a ≠ stored → t.readByte a = s.readByte a

/-- Flags, instruction register, run state and parameters are as before. -/
def SameControl (s t : State) : Prop :=
  t.flags = s.flags ∧ t.ir = s.ir ∧ t.run = s.run ∧ t.cfg = s.cfg

/-- A fault was taken in `s`, and `t` is `s` but for its run state (R85, R151, R152). -/
def FaultTaken (s t : State) (cause : FaultCause) : Prop :=
  t.run = .failed { cause := cause, pc := s.pc, ir := s.ir } ∧ t.pc = s.pc ∧ t.ir = s.ir ∧ t.flags = s.flags ∧
    t.cfg = s.cfg ∧ t.out = s.out ∧ (∀ q, t.getReg q = s.getReg q) ∧ SameMemory s t

/-- Which general registers an instruction may write: the table of R23. -/
def mayWrite (i : Instr) (q : Fin 8) : Bool :=
  match i with
  | .ldi r _  => r == regByte q
  | .prn _    => false
  | .pra _    => false
  | .add rA _ => rA == regByte q
  | .sub rA _ => rA == regByte q
  | .mul rA _ => rA == regByte q
  | .div rA _ => rA == regByte q
  | .cmp _ _  => false
  | .push _   => q == 7
  | .pop r    => r == regByte q || q == 7
  | .call _   => q == 7
  | .ret      => q == 7
  | .jmp _    => false
  | .jeq _    => false
  | .jne _    => false
  | .hlt      => false

/-- The register operands a handler uses in a state, in the order it checks them (R87, R154): a conditional jump that is
not taken uses none (R121, R122; D6, log 7). -/
def usedOperands (i : Instr) (s : State) : List Byte :=
  match i with
  | .jeq r => if s.flags.E = true then [r] else []
  | .jne r => if s.flags.E = true then [] else [r]
  | _      => i.registerOperands

/-- How far on the sequential successor is that a handler evaluates in a state (R86), none where it evaluates none. -/
def successor (i : Instr) (s : State) : Option Nat :=
  match i with
  | .jeq _ => if s.flags.E = true then none else some 2
  | .jne _ => if s.flags.E = true then some 2 else none
  | .jmp _ => none
  | .ret   => none
  | .hlt   => none
  | _      => some i.length

/-- DIV meets a divisor register that holds 0 (R104). -/
def DividesByZero (i : Instr) (s : State) : Prop :=
  ∃ rA b, i = .div rA (regByte b) ∧ s.getReg b = 0#8

end Sys2Proof.Machine
end

