-- ==== Sys2Proof/Certificates/Slice0/Obligations.lean ====
section
/-! DEFINITION. The statements about this model, one `def Obligations.<Name> : Prop` each. A statement that rests on a
decision the spec marks as its own (D1 to D26) or on a choice of the model names it in its docstring. -/

open Sys2Proof Sys2Proof.Machine

/-! ### Encoding -/

/-- Decoding what the encoder writes gives the instruction back, with every operand byte at every value, under every
injective opcode map, whatever bytes follow (30_encoding.md R60 to R66; operand order is D2, log 4). -/
def Obligations.DecodeEncodeRoundTrip : Prop :=
  ∀ (map : OpcodeMap), map.Injective → ∀ (i : Instr) (rest : List Byte),
    decode map (encode map i ++ rest) = .ok (i, rest)

/-- Each byte string has one meaning: whatever decodes is the encoding of what it decodes to (operand order is D2,
log 4). -/
def Obligations.DecodedBytesAreTheEncoding : Prop :=
  ∀ (map : OpcodeMap) (bytes rest : List Byte) (i : Instr),
    decode map bytes = .ok (i, rest) → bytes = encode map i ++ rest

/-- R66: `decode(b)` is the unique mnemonic the map gives `b`, and illegal where there is none. -/
def Obligations.OpcodeDecodingInvertsTheMap : Prop :=
  ∀ (map : OpcodeMap), map.Injective → ∀ b : Byte,
    (∀ m, decodeOpcode map b = some m ↔ map.code m = b) ∧
    (decodeOpcode map b = none ↔ ∀ m, map.code m ≠ b)

/-- R60, R69: the length and the mnemonic of an instruction follow from its opcode byte alone, the decoder consumes exactly
that length, and it is 1, 2 or 3. -/
def Obligations.LengthFollowsFromTheOpcode : Prop :=
  ∀ (map : OpcodeMap) (b : Byte) (p q rest rest' : List Byte) (i j : Instr),
    decode map (b :: p) = .ok (i, rest) → decode map (b :: q) = .ok (j, rest') →
      i.mnemonic = j.mnemonic ∧ i.length = j.length ∧ (b :: p).length = i.length + rest.length ∧
        1 ≤ i.length ∧ i.length ≤ 3

/-- Words written out from the spec's encodings decode to the instructions they stand for. The opcode values are the LS-8
ones, from general knowledge (D1, PRESUMED, log 1); the operand order is D2 (log 4). -/
def Obligations.DefaultMapWordsDecode : Prop :=
  decode OpcodeMap.ls8 [0x82#8, 0x00#8, 0x08#8] = .ok (.ldi 0x00#8 0x08#8, []) ∧
  decode OpcodeMap.ls8 [0x47#8, 0x00#8] = .ok (.prn 0x00#8, []) ∧
  decode OpcodeMap.ls8 [0xA1#8, 0x02#8, 0x03#8] = .ok (.sub 0x02#8 0x03#8, []) ∧
  decode OpcodeMap.ls8 [0xA7#8, 0x00#8, 0x01#8] = .ok (.cmp 0x00#8 0x01#8, []) ∧
  decode OpcodeMap.ls8 [0x45#8, 0x07#8] = .ok (.push 0x07#8, []) ∧
  decode OpcodeMap.ls8 [0x11#8, 0x00#8] = .ok (.ret, [0x00#8]) ∧
  decode OpcodeMap.ls8 [0x55#8, 0x02#8] = .ok (.jeq 0x02#8, []) ∧
  decode OpcodeMap.ls8 [0x01#8] = .ok (.hlt, []) ∧
  decode OpcodeMap.ls8 [0x00#8] = .error (.illegalOpcode 0x00#8) ∧
  decode OpcodeMap.ls8 [0xA8#8, 0x00#8, 0x01#8] = .error (.illegalOpcode 0xA8#8)

/-- The default map is injective (R65), as the map of every engine must be, and has the field layout `AABCDDDD` of R64: the operand count, the ALU bit and the
sets-PC bit. The values are from general knowledge (D1, PRESUMED, log 1). -/
def Obligations.DefaultMapHasTheFieldLayout : Prop :=
  OpcodeMap.ls8.Injective ∧
  ∀ m : Mnemonic,
    (OpcodeMap.ls8.code m).toNat / 64 + 1 = m.length ∧
    ((OpcodeMap.ls8.code m).getLsbD 5 = true ↔ m ∈ [Mnemonic.add, .sub, .mul, .div, .cmp]) ∧
    ((OpcodeMap.ls8.code m).getLsbD 4 = true ↔ m ∈ [Mnemonic.call, .ret, .jmp, .jeq, .jne])

/-! ### The cycle -/

/-- Running is the initial run state and the only one from which a cycle is taken; Halted and Failed have no step; a cycle
executes exactly one instruction or ends the run with a fault (R80, R29). What a fault leaves unchanged and what its record
holds are R85, R151 and R152 with the spec's own choices D12 and D22 (log 13 and 14). -/
def Obligations.OnlyRunningTakesACycle : Prop :=
  State.reset.run = .running ∧
  (∀ s t, s.run ≠ .running → step s ≠ .next t) ∧
  (∀ s, s.run = .running →
    (∃ i t, s.fetchOpcode.fetchInstr = .ok i ∧ exec i s.fetchOpcode = .next t ∧ step s = .next t) ∨
    (∃ cause t, s.fetchOpcode.fetchInstr = .error cause ∧ FaultTaken s.fetchOpcode t cause ∧ step s = .next t))

/-- A step asked of a run that has ended stops under the name of its end (R80). That the model answers so where the engine
has no step is its DESIGN CHOICE (log 24). -/
def Obligations.EndedRunStopsUnderItsName : Prop :=
  ∀ s : State,
    (s.run = .halted → step s = .fault .halted) ∧
    (∀ record, s.run = .failed record → step s = .fault (.failed record))

/-- R153: no cycle follows a fault, so nothing returns from one and none nests: the state a failed run reaches is the state
it failed in. -/
def Obligations.FailedIsFinal : Prop :=
  ∀ (s t : State) (record : FaultRecord), s.run = .failed record → Reaches s t → t = s

/-- A STEP RUNS THE DECODED INSTRUCTION: where the bytes from `pc` on decode to `i` and all of them may be fetched, the step
is `exec i` in the state whose `ir` holds the opcode byte (R81 to R84). Under `fault` an instruction that straddles 255
is left to OperandFetchPastTheTopFaults (D3, log 3). -/
def Obligations.StepRunsTheDecodedInstruction : Prop :=
  ∀ (s : State) (i : Instr) (rest : List Byte), s.run = .running →
    decode s.cfg.opcodeMap s.window = .ok (i, rest) →
    s.cfg.pcOverflow = .wrap ∨ s.pc.toNat + i.length ≤ 256 →
      step s = exec i (s.setIr (s.readByte s.pc))

/-- R81: every cycle writes the byte at `pc` to `ir`, even one that then faults. -/
def Obligations.EveryCycleWritesTheOpcodeToIr : Prop :=
  ∀ s : State, s.run = .running → ∃ t, step s = .next t ∧ t.ir = s.readByte s.pc

/-- R82: an illegal opcode byte ends the run in Failed(IllegalInstruction) with the offending address and byte, and nothing
else in the state changes but `ir`. -/
def Obligations.IllegalOpcodeFailsTheRun : Prop :=
  ∀ s : State, s.run = .running → (∀ m, s.cfg.opcodeMap.code m ≠ s.readByte s.pc) →
    ∃ t, step s = .next t ∧
      t.run = .failed { cause := .illegalInstruction, pc := s.pc, ir := s.readByte s.pc } ∧
      t.ir = s.readByte s.pc ∧ t.pc = s.pc ∧ t.flags = s.flags ∧ t.out = s.out ∧ t.cfg = s.cfg ∧
      (∀ q, t.getReg q = s.getReg q) ∧ SameMemory s t

/-- Under `pcOverflow = fault`, an instruction whose operands lie past 255 raises AddressOutOfRange(256) before its handler
runs, and nothing but `ir` is written (R83, R85, R86, R151, R154). The mode is D3, the order D11, the frame D12, the detail
D22, all the spec's own choices (log 3, 12, 13, 14). -/
def Obligations.OperandFetchPastTheTopFaults : Prop :=
  ∀ (s : State) (m : Mnemonic), s.run = .running →
    s.readByte s.pc = s.cfg.opcodeMap.code m → s.cfg.pcOverflow = .fault → 256 < s.pc.toNat + m.length →
      ∃ t, step s = .next t ∧ FaultTaken (s.setIr (s.readByte s.pc)) t (.addressOutOfRange 256)

/-- Faults are precise: a cycle that ends in Failed changes nothing but `ir` and the run state, and its record names the
address and the opcode byte of the faulting instruction (R85, R151, R152; D12 and D22 are the spec's own choices, log 13
and 14). -/
def Obligations.FaultsArePrecise : Prop :=
  ∀ (s t : State) (record : FaultRecord), step s = .next t → t.run = .failed record →
    FaultTaken (s.setIr (s.readByte s.pc)) t record.cause

/-- HLT is the only way to reach Halted (R88, R89). -/
def Obligations.OnlyHltHalts : Prop :=
  ∀ s t : State, step s = .next t → t.run = .halted → s.readByte s.pc = s.cfg.opcodeMap.hlt

/-- No cycle depends on what `ir` held before it (R28, R81; so the reset value of D8, log 9, cannot be observed). -/
def Obligations.StepForgetsTheOldIr : Prop :=
  ∀ (s : State) (b : Byte), step (s.setIr b) = step s

/-- The engine never reads its output channel (R30): with another output so far, every cycle ends in the same state but
for the output, and appends the same events. The output as an event list is D14 (log 15). -/
def Obligations.OutputIsNeverRead : Prop :=
  ∀ (s t : State) (out : List OutEvent), step s = .next t →
    ∃ events, t.out = s.out ++ events ∧ step { s with out := out } = .next { t with out := out ++ events }

/-- One cycle appends at most one event: a Numeric one only for PRN, a Character one only for PRA (R30, R91, R92; D14 and
D26, log 15). -/
def Obligations.OnlyPrintsAppendOutput : Prop :=
  ∀ s t : State, step s = .next t →
    t.out = s.out ∨
    (∃ v, t.out = s.out ++ [⟨.numeric, v⟩] ∧ s.readByte s.pc = s.cfg.opcodeMap.prn) ∨
    (∃ v, t.out = s.out ++ [⟨.character, v⟩] ∧ s.readByte s.pc = s.cfg.opcodeMap.pra)

/-- No cycle changes the parameters the engine was constructed with (R6; that they stand in State is the model's DESIGN
CHOICE, log 2). -/
def Obligations.ParametersNeverChange : Prop :=
  ∀ s t : State, step s = .next t → t.cfg = s.cfg

/-! ### Invariants -/

/-- Every step keeps the canonical form of memory (20_memory.md R40; the form is the model's, log 27). -/
def Obligations.StepKeepsMemoryCanonical : Prop := KeptByStep (fun s => s.mem.wf)

/-- Every step keeps: a run that has ended has ended the way its state says. A fault record names this `pc` and `ir`, and its
cause holds of the state (illegal byte, divisor register that holds 0, operand above 7, address 256 to 258 under
`fault`), never the reserved code 2; a halted run stands on an HLT (R88, R106, R150, R151; D5, D9, D12, D20, D22 are the
spec's own choices, log 6, 10, 13, 14, 21). -/
def Obligations.StepKeepsEndExplained : Prop := KeptByStep State.EndExplained

/-- Every step keeps: at most one of E, L, G is set (R27). -/
def Obligations.StepKeepsFlagsExclusive : Prop := KeptByStep (fun s => s.flags.AtMostOne)

/-- Every newly constructed engine meets the invariants; so does State.reset (R35; the reset flags are D7, log 8). -/
def Obligations.ConstructionMeetsInvariant : Prop :=
  State.reset.Inv ∧ ∀ cfg : Config, (State.construct cfg).Inv

/-! ### Whole-ISA frames -/

/-- CMP is the only writer of the flags and writes all three; no other instruction and no fault changes a flag; the flags
are read by JEQ and JNE alone, and those read only E (R26). The pattern CMP writes is R105; that CMP completes wherever it
has a successor is R86 with the spec's own choice D3 (log 3). -/
def Obligations.OnlyCompareTouchesFlags : Prop :=
  (∀ (i : Instr) (s t : State), i.mnemonic ≠ .cmp → exec i s = .next t → t.flags = s.flags) ∧
  (∀ (s t : State) (record : FaultRecord), step s = .next t → t.run = .failed record → t.flags = s.flags) ∧
  (∀ (s : State) (a b : Fin 8), s.Continues 3 →
    ∃ t, exec (.cmp (regByte a) (regByte b)) s = .next t ∧
      t.flags = { E := decide (s.getReg a = s.getReg b)
                  L := decide ((s.getReg a).toNat < (s.getReg b).toNat)
                  G := decide ((s.getReg b).toNat < (s.getReg a).toNat) }) ∧
  (∀ (i : Instr) (s t : State) (f : Flags), exec i s = .next t →
    f.E = s.flags.E ∨ (i.mnemonic ≠ .jeq ∧ i.mnemonic ≠ .jne) →
      ∃ u, exec i (s.setFlags f) = .next u ∧ u.setFlags t.flags = t)

/-- Which general registers each instruction may write: the table of R23. -/
def Obligations.RegistersWrittenAreThoseOfTheTable : Prop :=
  ∀ (i : Instr) (s t : State), exec i s = .next t → ∀ q, mayWrite i q = false → t.getReg q = s.getReg q

/-- The only stores are those of PUSH and CALL, one byte at SP after its decrement (R42). -/
def Obligations.OnlyPushAndCallStore : Prop :=
  ∀ (i : Instr) (s t : State), exec i s = .next t →
    SameMemoryExcept s t s.pushAddr ∧ (i.mnemonic ≠ .push → i.mnemonic ≠ .call → SameMemory s t)

/-! ### Results and completion, one statement per shape -/

/-- LDI (R90): any immediate to any register, R7 among them; nothing else changes but `pc`. Past 255 `pc` is D3 (log 3). -/
def Obligations.LdiLoadsItsImmediate : Prop :=
  ∀ (s : State) (d : Fin 8) (v : Byte), s.Continues 3 →
    ∃ t, exec (.ldi (regByte d) v) s = .next t ∧ t.getReg d = v ∧ PcAdvanced s t 3 ∧
      SameRegsExcept s t [d] ∧ SameMemory s t ∧ SameControl s t ∧ t.out = s.out

/-- PRN and PRA (R91, R92): the register's byte is appended under its kind; no register, flag or byte of memory changes. The
event list is D14 (log 15); past 255 `pc` is D3 (log 3). -/
def Obligations.PrintsAppendTheRegister : Prop :=
  ∀ (s : State) (r : Fin 8), s.Continues 2 →
    (∃ t, exec (.prn (regByte r)) s = .next t ∧ t.out = s.out ++ [⟨.numeric, s.getReg r⟩] ∧ PcAdvanced s t 2 ∧
      SameRegsExcept s t [] ∧ SameMemory s t ∧ SameControl s t) ∧
    (∃ t, exec (.pra (regByte r)) s = .next t ∧ t.out = s.out ++ [⟨.character, s.getReg r⟩] ∧ PcAdvanced s t 2 ∧
      SameRegsExcept s t [] ∧ SameMemory s t ∧ SameControl s t)

/-- ADD, SUB, MUL (R101 to R103, R107): the result mod 256, for all values and all registers, the same register as both
operands among them; the frame. Past 255 `pc` is D3 (log 3). -/
def Obligations.AddSubMulWrapModulo256 : Prop :=
  ∀ (s : State) (a b : Fin 8), s.Continues 3 →
    (∃ t, exec (.add (regByte a) (regByte b)) s = .next t ∧
      (t.getReg a).toNat = ((s.getReg a).toNat + (s.getReg b).toNat) % 256 ∧ PcAdvanced s t 3 ∧
      SameRegsExcept s t [a] ∧ SameMemory s t ∧ SameControl s t ∧ t.out = s.out) ∧
    (∃ t, exec (.sub (regByte a) (regByte b)) s = .next t ∧
      ((t.getReg a).toNat : Int) = (((s.getReg a).toNat : Int) - (s.getReg b).toNat) % 256 ∧ PcAdvanced s t 3 ∧
      SameRegsExcept s t [a] ∧ SameMemory s t ∧ SameControl s t ∧ t.out = s.out) ∧
    (∃ t, exec (.mul (regByte a) (regByte b)) s = .next t ∧
      (t.getReg a).toNat = ((s.getReg a).toNat * (s.getReg b).toNat) % 256 ∧ PcAdvanced s t 3 ∧
      SameRegsExcept s t [a] ∧ SameMemory s t ∧ SameControl s t ∧ t.out = s.out)

/-- DIV by a register that does not hold 0 (R104, R107): the unsigned integer quotient; the frame. Past 255 `pc` is D3
(log 3). -/
def Obligations.DivWritesTheQuotient : Prop :=
  ∀ (s : State) (a b : Fin 8), s.Continues 3 → s.getReg b ≠ 0#8 →
    ∃ t, exec (.div (regByte a) (regByte b)) s = .next t ∧
      (t.getReg a).toNat = (s.getReg a).toNat / (s.getReg b).toNat ∧ PcAdvanced s t 3 ∧
      SameRegsExcept s t [a] ∧ SameMemory s t ∧ SameControl s t ∧ t.out = s.out

/-- DIV by a register that holds 0 (R104, R154): DivisionByZero with the divisor register's index, nothing written, also
where the sequential successor would lie past 255 (the order is D11, the frame D12, the detail D22, log 12, 13, 14). -/
def Obligations.DivByZeroFails : Prop :=
  ∀ (s : State) (a b : Fin 8), s.getReg b = 0#8 →
    ∃ t, exec (.div (regByte a) (regByte b)) s = .next t ∧ FaultTaken s t (.divisionByZero b)

/-- CMP (R105, R107, R27): the flag pattern of the unsigned comparison, exactly one flag set, neither register written;
the frame. Past 255 `pc` is D3 (log 3). -/
def Obligations.CmpSetsTheFlagPattern : Prop :=
  ∀ (s : State) (a b : Fin 8), s.Continues 3 →
    ∃ t, exec (.cmp (regByte a) (regByte b)) s = .next t ∧
      (t.flags.E = true ↔ (s.getReg a).toNat = (s.getReg b).toNat) ∧
      (t.flags.L = true ↔ (s.getReg a).toNat < (s.getReg b).toNat) ∧
      (t.flags.G = true ↔ (s.getReg b).toNat < (s.getReg a).toNat) ∧
      t.flags.ExactlyOne ∧ PcAdvanced s t 3 ∧
      SameRegsExcept s t [] ∧ SameMemory s t ∧ t.ir = s.ir ∧ t.run = s.run ∧ t.cfg = s.cfg ∧ t.out = s.out

/-- JMP (R120, R123): `pc` is the register's value, any byte; nothing else changes, and nothing is asked of `pc`. -/
def Obligations.JmpGoesToTheRegister : Prop :=
  ∀ (s : State) (r : Fin 8),
    ∃ t, exec (.jmp (regByte r)) s = .next t ∧ t.pc = s.getReg r ∧
      SameRegsExcept s t [] ∧ SameMemory s t ∧ SameControl s t ∧ t.out = s.out

/-- JEQ branches iff E = 1 and JNE iff E = 0 (R121, R122, R123). A jump that is not taken goes on whatever its operand byte
is (D6, log 7); past 255 `pc` is D3 (log 3). -/
def Obligations.ConditionalJumpsReadE : Prop :=
  (∀ (s : State) (r : Fin 8), s.flags.E = true →
    ∃ t, exec (.jeq (regByte r)) s = .next t ∧ t.pc = s.getReg r ∧
      SameRegsExcept s t [] ∧ SameMemory s t ∧ SameControl s t ∧ t.out = s.out) ∧
  (∀ (s : State) (r : Fin 8), s.flags.E = false →
    ∃ t, exec (.jne (regByte r)) s = .next t ∧ t.pc = s.getReg r ∧
      SameRegsExcept s t [] ∧ SameMemory s t ∧ SameControl s t ∧ t.out = s.out) ∧
  (∀ (s : State) (b : Byte), s.flags.E = false → s.Continues 2 →
    ∃ t, exec (.jeq b) s = .next t ∧ PcAdvanced s t 2 ∧
      SameRegsExcept s t [] ∧ SameMemory s t ∧ SameControl s t ∧ t.out = s.out) ∧
  (∀ (s : State) (b : Byte), s.flags.E = true → s.Continues 2 →
    ∃ t, exec (.jne b) s = .next t ∧ PcAdvanced s t 2 ∧
      SameRegsExcept s t [] ∧ SameMemory s t ∧ SameControl s t ∧ t.out = s.out)

/-- PUSH (R131, R136): SP goes down by one mod 256, and the register's value is stored at the new SP; PUSH R7 stores the
decremented SP. No other register, byte of memory or flag changes. The wrap is D4, the R7 case D10 (log 5 and 11); past
255 `pc` is D3 (log 3). -/
def Obligations.PushStoresBelowTheTop : Prop :=
  ∀ (s : State) (r : Fin 8), s.Continues 2 →
    ∃ t, exec (.push (regByte r)) s = .next t ∧
      t.sp = s.pushAddr ∧ s.pushAddr.toNat = (s.sp.toNat + 255) % 256 ∧
      t.readByte s.pushAddr = (if r = 7 then s.pushAddr else s.getReg r) ∧ SameMemoryExcept s t s.pushAddr ∧
      PcAdvanced s t 2 ∧ SameRegsExcept s t [7] ∧ SameControl s t ∧ t.out = s.out

/-- POP (R132, R136): the byte at SP goes to the register, then SP goes up by one mod 256; POP R7 increments the byte it
loaded. The byte stays in memory. The wrap is D4, the R7 case D10 (log 5 and 11); past 255 `pc` is D3 (log 3). -/
def Obligations.PopLoadsTheTop : Prop :=
  ∀ (s : State) (d : Fin 8), s.Continues 2 →
    ∃ t, exec (.pop (regByte d)) s = .next t ∧
      (d ≠ 7 → t.getReg d = s.readByte s.sp ∧ t.sp.toNat = (s.sp.toNat + 1) % 256) ∧
      (d = 7 → t.sp.toNat = ((s.readByte s.sp).toNat + 1) % 256) ∧
      SameMemory s t ∧ PcAdvanced s t 2 ∧ SameRegsExcept s t [d, 7] ∧ SameControl s t ∧ t.out = s.out

/-- CALL (R133, R136): the address two bytes on is pushed, and `pc` is the register's value read after the push; CALL R7
goes to the decremented SP. No other register or byte of memory changes. The wrap is D4, the R7 case D10 (log 5 and 11);
a return address past 255 is D3 (log 3). -/
def Obligations.CallPushesTheReturnAddress : Prop :=
  ∀ (s : State) (r : Fin 8), s.Continues 2 →
    ∃ t, exec (.call (regByte r)) s = .next t ∧
      t.sp = s.pushAddr ∧ s.pushAddr.toNat = (s.sp.toNat + 255) % 256 ∧
      (t.readByte s.pushAddr).toNat = (s.pc.toNat + 2) % 256 ∧ SameMemoryExcept s t s.pushAddr ∧
      t.pc = (if r = 7 then s.pushAddr else s.getReg r) ∧
      SameRegsExcept s t [7] ∧ SameControl s t ∧ t.out = s.out

/-- RET (R134, R136): `pc` is the byte at SP, and SP goes up by one mod 256; it completes in every state. The wrap is D4
(log 5). -/
def Obligations.RetPopsIntoPc : Prop :=
  ∀ s : State,
    ∃ t, exec .ret s = .next t ∧ t.pc = s.readByte s.sp ∧ t.sp.toNat = (s.sp.toNat + 1) % 256 ∧
      SameMemory s t ∧ SameRegsExcept s t [7] ∧ SameControl s t ∧ t.out = s.out

/-- HLT (R88): the run is Halted and nothing else changes; it completes in every state. That `pc` keeps the address of the
HLT is D9 (log 10). -/
def Obligations.HltHaltsInPlace : Prop :=
  ∀ s : State,
    ∃ t, exec .hlt s = .next t ∧ t.run = .halted ∧ t.pc = s.pc ∧ t.flags = s.flags ∧ t.ir = s.ir ∧ t.cfg = s.cfg ∧
      t.out = s.out ∧ SameRegsExcept s t [] ∧ SameMemory s t

/-- PUSH then POP of one register restores every register, SP among them, for every register, R7 among them (R135; the R7
case is D10, the wrap D4, log 11 and 5). -/
def Obligations.PushThenPopRestoresRegisters : Prop :=
  ∀ (s : State) (r : Fin 8), s.Continues 4 →
    ∃ t u, exec (.push (regByte r)) s = .next t ∧ exec (.pop (regByte r)) t = .next u ∧
      SameRegsExcept s u [] ∧ PcAdvanced s u 4

/-- CALL then a RET that finds SP and the pushed byte as CALL left them returns to the instruction after the CALL, with SP
as it was before (R135; the wrap of SP is D4, log 5; of the return address D3, log 3). -/
def Obligations.CallThenRetReturns : Prop :=
  ∀ (s : State) (r : Fin 8), s.Continues 2 →
    ∃ t, exec (.call (regByte r)) s = .next t ∧
      ∀ u : State, u.sp = t.sp → u.readByte t.sp = t.readByte t.sp →
        ∃ v, exec .ret u = .next v ∧ PcAdvanced s v 2 ∧ v.sp = s.sp

/-- CMP followed at once by JEQ sees the new E (R184): the jump is taken iff the two registers are equal. That there is no
hazard is D19 (log 20); past 255 `pc` is D3 (log 3). -/
def Obligations.CompareThenJumpSeesNewFlags : Prop :=
  ∀ (s : State) (a b r : Fin 8), s.Continues 5 →
    ∃ t u, exec (.cmp (regByte a) (regByte b)) s = .next t ∧ exec (.jeq (regByte r)) t = .next u ∧
      (s.getReg a = s.getReg b → u.pc = s.getReg r) ∧ (s.getReg a ≠ s.getReg b → PcAdvanced s u 5)

/-! ### Faults of handlers -/

/-- A used register operand above 7 raises RegisterIndexOutOfRange for the first such operand, and nothing is written (R87,
R151, R154). A jump that is not taken uses none. The fault is D5, its use-point D6, the order D11, the frame D12, the detail
D22 (log 6, 7, 12, 13, 14). -/
def Obligations.RegisterOperandAboveSevenFaults : Prop :=
  ∀ (i : Instr) (s : State) (b : Byte), (usedOperands i s).find? (fun c => decide (7 < c.toNat)) = some b →
    ∃ t, exec i s = .next t ∧ FaultTaken s t (.registerIndexOutOfRange b)

/-- Under `pcOverflow = fault`, a handler whose sequential successor lies past 255 raises AddressOutOfRange with that
address, after every other check (R86, R154), and nothing is written. JMP, RET, HLT and taken conditional jumps evaluate
no successor. The mode is D3, the order D11, the frame D12, the detail D22 (log 3, 12,
13, 14). -/
def Obligations.SuccessorPastTheTopFaults : Prop :=
  ∀ (i : Instr) (s : State) (n : Nat), s.cfg.pcOverflow = .fault → successor i s = some n → 255 < s.pc.toNat + n →
    (∀ b ∈ usedOperands i s, b.toNat ≤ 7) → ¬ DividesByZero i s →
      ∃ t, exec i s = .next t ∧ FaultTaken s t (.addressOutOfRange (s.pc.toNat + n))

/-- Under the default `wrap`, a well-formed instruction that does not divide by 0 never fails the run (R86, R87, R150 to
R154; the mode is D3, no stack guard D4, log 3 and 5). -/
def Obligations.WellFormedInstructionsDoNotFail : Prop :=
  ∀ (i : Instr) (s t : State), s.run = .running → s.cfg.pcOverflow = .wrap → i.WellFormed → ¬ DividesByZero i s →
    exec i s = .next t → t.NotFailed

/-! ### Memory, reset and the host -/

/-- R46: after any stores, in their order, a read gives what the last store to that address left there, or what it gave
before them; over every memory, canonical or not. -/
def Obligations.ReadGivesTheLastWrite : Prop :=
  ∀ (s : State) (stores : List (Byte × Byte)) (a : Byte),
    (stores.foldl (fun t store => t.writeByte store.1 store.2) s).readByte a =
      match stores.reverse.find? (fun store => store.1 == a) with
      | some store => store.2
      | none       => s.readByte a

/-- Two canonical memories that read alike at every byte address are equal data (R40; the form is the model's, log 27). -/
def Obligations.CanonicalMemoriesAreEqualData : Prop :=
  ∀ m n : Memory, m.wf → n.wf → (∀ a, a < 256 → m.read a = n.read a) → m = n

/-- A stored byte is seen by the next fetch of its address, with no barrier (R52; D18 is the spec's own choice, log 19). -/
def Obligations.FetchSeesTheLatestStore : Prop :=
  ∀ (s : State) (a v : Byte), s.run = .running →
    ∃ t, step ((s.writeByte a v).setPc a) = .next t ∧ t.ir = v

/-- The reset state (R35, R180): R0 to R6 hold 0, SP 0xF4, `pc` 0, the flags 0 (D7, log 8), `ir` 0 (D8, log 9), every byte of
memory 0, the run is Running, the output empty (D14, log 15). -/
def Obligations.ResetStateIsAsSpecified : Prop :=
  (∀ q : Fin 8, State.reset.getReg q = if q = 7 then 0xF4#8 else 0x00#8) ∧ State.reset.pc = 0x00#8 ∧
  State.reset.flags = { E := false, L := false, G := false } ∧ State.reset.ir = 0x00#8 ∧
  (∀ a : Byte, State.reset.readByte a = 0x00#8) ∧ State.reset.run = .running ∧ State.reset.out = []

/-- The loader's contract (R41, R180, R182): an image of at most 256 bytes stands at addresses 0, 1, ... in order and every
other byte is 0, with nothing else changed; a longer image is refused (D17, log 18). -/
def Obligations.LoadPlacesTheImage : Prop :=
  ∀ (cfg : Config) (image : List Byte),
    (image.length ≤ 256 → ∃ t, loadImage image (State.construct cfg) = .ok t ∧
      (∀ a : Byte, t.readByte a = image.getD a.toNat 0x00#8) ∧
      t = { State.construct cfg with mem := t.mem } ∧ t.mem.wf) ∧
    (256 < image.length → loadImage image (State.construct cfg) = .error .programLoadError)

/-- R159: `Halted` maps to exit status 0 and every `Failed` to a nonzero value; a run that has not ended has none; a host
that refuses to start exits with a nonzero value too. The nonzero values are free values (log 17). -/
def Obligations.ExitStatusTellsTheEnd : Prop :=
  ∀ s : State,
    (s.run = .halted → s.exitStatus = some 0) ∧
    (∀ record, s.run = .failed record → ∃ n : Int, n ≠ 0 ∧ s.exitStatus = some n) ∧
    (s.run = .running → s.exitStatus = none) ∧
    (∀ e : HostError, refusalExitCode e ≠ 0)

/-- During a run the host changes nothing of the engine (R36, R158): it observes, or it ends the session. The order of the
interactions is the model's reading (log 29). -/
def Obligations.HostOnlyObservesARun : Prop :=
  ∀ (move : HostMove) (s : State) (answer : HostAnswer) (after : Session),
    hostMove move (.started s) = some (answer, after) →
      (after = .started s ∧
        (answer = .events s.out ∨ ∃ report, s.report = some report ∧ answer = .ended report s)) ∨
      (after = .closed ∧ move = .abort ∧ answer = .nothing)

/-! ### The opcode map of an engine -/

/-- The opcode map of every engine is injective, whatever parameters it was constructed with (R65), and exactly 240 of the
256 byte values are illegal under it (R67). -/
def Obligations.EngineMapIsInjective : Prop :=
  ∀ s : State,
    (∀ m k, s.cfg.opcodeMap.code m = s.cfg.opcodeMap.code k → m = k) ∧
    (List.range 256).countP (fun n => (decodeOpcode s.cfg.opcodeMap (BitVec.ofNat 8 n)).isNone) = 240

/-- An opcode map that is not injective makes no engine; every injective one does, with either `pcOverflow` (R65). -/
def Obligations.NoEngineTakesASharedOpcode : Prop :=
  ∀ (map : OpcodeMap) (pcOverflow : PcOverflow),
    ((∃ m k, m ≠ k ∧ map.code m = map.code k) → Config.ofMap map pcOverflow = none) ∧
    ((∀ m k, map.code m = map.code k → m = k) →
      ∃ cfg, Config.ofMap map pcOverflow = some cfg ∧ cfg.opcodeMap = map ∧ cfg.pcOverflow = pcOverflow)
end

