-- ==== Sys2Proof/Laws/Decode.lean ====
section
/-! SUPPORT. What the opcode decoder and the operand decoder can answer. -/

namespace Sys2Proof

theorem Mnemonic.mem_all (m : Mnemonic) : m ∈ Mnemonic.all := by cases m <;> decide

/-- A decoded opcode byte is the byte the map gives its mnemonic, on any map. -/
theorem code_of_decodeOpcode {map : OpcodeMap} {b : Byte} {m : Mnemonic} (h : decodeOpcode map b = some m) :
    map.code m = b := by
  simpa using List.find?_some h

/-- A byte is illegal exactly where no mnemonic has it, on any map (R67). -/
theorem decodeOpcode_eq_none {map : OpcodeMap} {b : Byte} :
    decodeOpcode map b = none ↔ ∀ m, map.code m ≠ b := by
  simp [decodeOpcode, List.find?_eq_none, Mnemonic.mem_all]

/-- On an injective map two mnemonics never share an opcode. -/
theorem OpcodeMap.Injective.eq {map : OpcodeMap} (h : map.Injective) {m k : Mnemonic} (hc : map.code m = map.code k) :
    m = k :=
  List.inj_on_of_nodup_map (show (Mnemonic.all.map map.code).Nodup from h) (Mnemonic.mem_all m) (Mnemonic.mem_all k) hc

/-- On an injective map, decoding an opcode byte inverts the map (R66). -/
theorem decodeOpcode_eq_some {map : OpcodeMap} (h : map.Injective) {b : Byte} {m : Mnemonic} :
    decodeOpcode map b = some m ↔ map.code m = b := by
  refine ⟨code_of_decodeOpcode, fun hm => ?_⟩
  cases hd : decodeOpcode map b with
  | none => exact absurd hm (decodeOpcode_eq_none.mp hd m)
  | some k => rw [h.eq ((code_of_decodeOpcode hd).trans hm.symm)]

/-- `Config.ofMap` answers the parameters it was given, and only for an injective map (R65). -/
theorem Config.ofMap_eq_some {map : OpcodeMap} {pcOverflow : PcOverflow} {cfg : Config} :
    Config.ofMap map pcOverflow = some cfg ↔ cfg.opcodeMap = map ∧ cfg.pcOverflow = pcOverflow := by
  constructor
  · intro h
    unfold Config.ofMap at h
    split at h
    · cases h; exact ⟨rfl, rfl⟩
    · cases h
  · rintro ⟨rfl, rfl⟩
    exact dif_pos cfg.injective

/-- `Config.ofMap` refuses exactly the maps that are not injective (R65). -/
theorem Config.ofMap_eq_none {map : OpcodeMap} {pcOverflow : PcOverflow} :
    Config.ofMap map pcOverflow = none ↔ ¬ map.Injective := by
  simp [Config.ofMap]

@[simp] theorem Mnemonic.instr_mnemonic (m : Mnemonic) (a b : Byte) : (m.instr a b).mnemonic = m := by
  cases m <;> rfl

@[simp] theorem Mnemonic.instr_length (m : Mnemonic) (a b : Byte) : (m.instr a b).length = m.length := by
  simp [Instr.length]

/-- Everything the operand decoder can answer (R61, R62): the operands its format has are taken, in order. -/
theorem decodeOperands_eq_ok {m : Mnemonic} {bytes rest : List Byte} {i : Instr}
    (h : decodeOperands m bytes = .ok (i, rest)) :
    (m.length = 1 ∧ i = m.instr 0#8 0#8 ∧ bytes = rest) ∨
    (m.length = 2 ∧ ∃ a, i = m.instr a 0#8 ∧ bytes = a :: rest) ∨
    (m.length = 3 ∧ ∃ a b, i = m.instr a b ∧ bytes = a :: b :: rest) := by
  unfold decodeOperands at h
  split at h <;> simp_all [Mnemonic.length, Format.length]

end Sys2Proof
end

