-- ==== Sys2Proof/Laws/State.lean ====
section
/-! SUPPORT. One lemma per field per update of State, so that no later proof unfolds a record update. -/

namespace Sys2Proof.Machine

section Fields
variable (s : State) (i : Fin 8) (v a : Byte) (f : Flags) (r : RunState) (k : OutKind) (c : FaultCause)

@[simp] theorem State.setReg_cfg : (s.setReg i v).cfg = s.cfg := rfl
@[simp] theorem State.setReg_pc : (s.setReg i v).pc = s.pc := rfl
@[simp] theorem State.setReg_flags : (s.setReg i v).flags = s.flags := rfl
@[simp] theorem State.setReg_ir : (s.setReg i v).ir = s.ir := rfl
@[simp] theorem State.setReg_mem : (s.setReg i v).mem = s.mem := rfl
@[simp] theorem State.setReg_run : (s.setReg i v).run = s.run := rfl
@[simp] theorem State.setReg_out : (s.setReg i v).out = s.out := rfl

@[simp] theorem State.setPc_cfg : (s.setPc v).cfg = s.cfg := rfl
@[simp] theorem State.setPc_x : (s.setPc v).x = s.x := rfl
@[simp] theorem State.setPc_pc : (s.setPc v).pc = v := rfl
@[simp] theorem State.setPc_flags : (s.setPc v).flags = s.flags := rfl
@[simp] theorem State.setPc_ir : (s.setPc v).ir = s.ir := rfl
@[simp] theorem State.setPc_mem : (s.setPc v).mem = s.mem := rfl
@[simp] theorem State.setPc_run : (s.setPc v).run = s.run := rfl
@[simp] theorem State.setPc_out : (s.setPc v).out = s.out := rfl

@[simp] theorem State.setFlags_cfg : (s.setFlags f).cfg = s.cfg := rfl
@[simp] theorem State.setFlags_x : (s.setFlags f).x = s.x := rfl
@[simp] theorem State.setFlags_pc : (s.setFlags f).pc = s.pc := rfl
@[simp] theorem State.setFlags_flags : (s.setFlags f).flags = f := rfl
@[simp] theorem State.setFlags_ir : (s.setFlags f).ir = s.ir := rfl
@[simp] theorem State.setFlags_mem : (s.setFlags f).mem = s.mem := rfl
@[simp] theorem State.setFlags_run : (s.setFlags f).run = s.run := rfl
@[simp] theorem State.setFlags_out : (s.setFlags f).out = s.out := rfl

@[simp] theorem State.setIr_cfg : (s.setIr v).cfg = s.cfg := rfl
@[simp] theorem State.setIr_x : (s.setIr v).x = s.x := rfl
@[simp] theorem State.setIr_pc : (s.setIr v).pc = s.pc := rfl
@[simp] theorem State.setIr_flags : (s.setIr v).flags = s.flags := rfl
@[simp] theorem State.setIr_ir : (s.setIr v).ir = v := rfl
@[simp] theorem State.setIr_mem : (s.setIr v).mem = s.mem := rfl
@[simp] theorem State.setIr_run : (s.setIr v).run = s.run := rfl
@[simp] theorem State.setIr_out : (s.setIr v).out = s.out := rfl
@[simp] theorem State.setIr_setIr : (s.setIr a).setIr v = s.setIr v := rfl

@[simp] theorem State.setRun_cfg : (s.setRun r).cfg = s.cfg := rfl
@[simp] theorem State.setRun_x : (s.setRun r).x = s.x := rfl
@[simp] theorem State.setRun_pc : (s.setRun r).pc = s.pc := rfl
@[simp] theorem State.setRun_flags : (s.setRun r).flags = s.flags := rfl
@[simp] theorem State.setRun_ir : (s.setRun r).ir = s.ir := rfl
@[simp] theorem State.setRun_mem : (s.setRun r).mem = s.mem := rfl
@[simp] theorem State.setRun_run : (s.setRun r).run = r := rfl
@[simp] theorem State.setRun_out : (s.setRun r).out = s.out := rfl

@[simp] theorem State.emit_cfg : (s.emit k v).cfg = s.cfg := rfl
@[simp] theorem State.emit_x : (s.emit k v).x = s.x := rfl
@[simp] theorem State.emit_pc : (s.emit k v).pc = s.pc := rfl
@[simp] theorem State.emit_flags : (s.emit k v).flags = s.flags := rfl
@[simp] theorem State.emit_ir : (s.emit k v).ir = s.ir := rfl
@[simp] theorem State.emit_mem : (s.emit k v).mem = s.mem := rfl
@[simp] theorem State.emit_run : (s.emit k v).run = s.run := rfl
@[simp] theorem State.emit_out : (s.emit k v).out = s.out ++ [⟨k, v⟩] := rfl

@[simp] theorem State.writeByte_cfg : (s.writeByte a v).cfg = s.cfg := rfl
@[simp] theorem State.writeByte_x : (s.writeByte a v).x = s.x := rfl
@[simp] theorem State.writeByte_pc : (s.writeByte a v).pc = s.pc := rfl
@[simp] theorem State.writeByte_flags : (s.writeByte a v).flags = s.flags := rfl
@[simp] theorem State.writeByte_ir : (s.writeByte a v).ir = s.ir := rfl
@[simp] theorem State.writeByte_mem : (s.writeByte a v).mem = s.mem.write a.toNat v := rfl
@[simp] theorem State.writeByte_run : (s.writeByte a v).run = s.run := rfl
@[simp] theorem State.writeByte_out : (s.writeByte a v).out = s.out := rfl

@[simp] theorem State.raise_cfg : (s.raise c).cfg = s.cfg := rfl
@[simp] theorem State.raise_x : (s.raise c).x = s.x := rfl
@[simp] theorem State.raise_pc : (s.raise c).pc = s.pc := rfl
@[simp] theorem State.raise_flags : (s.raise c).flags = s.flags := rfl
@[simp] theorem State.raise_ir : (s.raise c).ir = s.ir := rfl
@[simp] theorem State.raise_mem : (s.raise c).mem = s.mem := rfl
@[simp] theorem State.raise_run : (s.raise c).run = .failed ⟨c, s.pc, s.ir⟩ := rfl
@[simp] theorem State.raise_out : (s.raise c).out = s.out := rfl

end Fields

/-! ### Reading a register after an update -/

section Registers
variable (s : State) (i q : Fin 8) (v a : Byte) (f : Flags) (r : RunState) (k : OutKind) (c : FaultCause)

@[simp] theorem State.getReg_setReg_self : (s.setReg i v).getReg i = v := by
  simp [State.getReg, State.setReg]

@[simp] theorem State.getReg_setReg_of_ne (h : q ≠ i) : (s.setReg i v).getReg q = s.getReg q := by
  have hv : i.val ≠ q.val := fun e => h (Fin.ext e.symm)
  simp [State.getReg, State.setReg, Vector.getElem_set_ne, hv]

/-- A register reads the last value written to it (R21). -/
theorem State.getReg_setReg : (s.setReg i v).getReg q = if q = i then v else s.getReg q := by
  by_cases h : q = i
  · subst h; simp
  · simp [h]

@[simp] theorem State.getReg_setPc : (s.setPc v).getReg q = s.getReg q := rfl
@[simp] theorem State.getReg_setFlags : (s.setFlags f).getReg q = s.getReg q := rfl
@[simp] theorem State.getReg_setIr : (s.setIr v).getReg q = s.getReg q := rfl
@[simp] theorem State.getReg_setRun : (s.setRun r).getReg q = s.getReg q := rfl
@[simp] theorem State.getReg_emit : (s.emit k v).getReg q = s.getReg q := rfl
@[simp] theorem State.getReg_writeByte : (s.writeByte a v).getReg q = s.getReg q := rfl
@[simp] theorem State.getReg_raise : (s.raise c).getReg q = s.getReg q := rfl

@[simp] theorem State.readByte_setReg : (s.setReg i v).readByte a = s.readByte a := rfl
@[simp] theorem State.readByte_setPc : (s.setPc v).readByte a = s.readByte a := rfl
@[simp] theorem State.readByte_setFlags : (s.setFlags f).readByte a = s.readByte a := rfl
@[simp] theorem State.readByte_setIr : (s.setIr v).readByte a = s.readByte a := rfl
@[simp] theorem State.readByte_setRun : (s.setRun r).readByte a = s.readByte a := rfl
@[simp] theorem State.readByte_emit : (s.emit k v).readByte a = s.readByte a := rfl
@[simp] theorem State.readByte_raise : (s.raise c).readByte a = s.readByte a := rfl

end Registers

end Sys2Proof.Machine
end

