-- ==== Sys2Proof/Laws/Memory.lean ====
section
/-! SUPPORT. The laws of memory: what a read after a write gives, and that a write keeps the canonical form. The read laws
hold of every list of cells, canonical or not. -/

namespace Sys2Proof.Machine

namespace Memory

theorem read_erase (m : Memory) (a b : Nat) :
    Memory.read (Memory.erase m a) b = if b = a then blankByte else Memory.read m b := by
  induction m with
  | nil => simp [Memory.erase, Memory.read]
  | cons c rest ih =>
    simp only [Memory.erase] at ih ⊢
    by_cases hc : c.1 = a
    · rw [List.filter_cons_of_neg (by simp [hc]), ih]
      by_cases hb : b = a
      · simp [hb]
      · have hcb : c.1 ≠ b := fun e => hb (e ▸ hc)
        simp [hb, Memory.read, hcb]
    · rw [List.filter_cons_of_pos (by simp [hc])]
      by_cases hcb : c.1 = b
      · have hb : b ≠ a := fun e => hc (hcb.trans e)
        simp [Memory.read, hcb, hb]
      · simp [Memory.read, hcb, ih]

theorem mem_erase {m : Memory} {a : Nat} {c : Host.Cell} : c ∈ Memory.erase m a ↔ c ∈ m ∧ c.1 ≠ a := by
  simp [Memory.erase]

theorem mem_insert {m : Memory} {a : Nat} {v : Byte} {c : Host.Cell} :
    c ∈ Memory.insert m a v ↔ c = (a, v) ∨ c ∈ m := by
  induction m with
  | nil => simp [Memory.insert]
  | cons d rest ih =>
    unfold Memory.insert
    split
    · simp
    · simp only [List.mem_cons, ih]; tauto

theorem read_insert (m : Memory) (a b : Nat) (v : Byte) (h : ∀ c ∈ m, c.1 ≠ a) :
    Memory.read (Memory.insert m a v) b = if b = a then v else Memory.read m b := by
  induction m with
  | nil =>
    by_cases hb : b = a
    · simp [Memory.insert, Memory.read, hb]
    · have hab : a ≠ b := fun e => hb e.symm
      simp [Memory.insert, Memory.read, hb, hab]
  | cons c rest ih =>
    have hc : c.1 ≠ a := h c (by simp)
    have ih := ih (fun d hd => h d (by simp [hd]))
    unfold Memory.insert
    split
    · by_cases hb : b = a
      · simp [Memory.read, hb]
      · have hab : a ≠ b := fun e => hb e.symm
        simp [Memory.read, hb, hab]
    · by_cases hcb : c.1 = b
      · have hb : b ≠ a := fun e => hc (hcb.trans e)
        simp [Memory.read, hcb, hb]
      · simp [Memory.read, hcb, ih]

/-- A read gives what the last write to that address left there. -/
theorem read_write (m : Memory) (a b : Nat) (v : Byte) :
    Memory.read (Memory.write m a v) b = if b = a then v else Memory.read m b := by
  unfold Memory.write
  split
  · rename_i hv; simp [read_erase, hv]
  · rw [read_insert _ _ _ _ (fun c hc => (mem_erase.mp hc).2), read_erase]
    by_cases hb : b = a <;> simp [hb]

theorem pairwise_erase {m : Memory} (h : m.Pairwise (fun c d => c.1 < d.1)) (a : Nat) :
    (Memory.erase m a).Pairwise (fun c d => c.1 < d.1) := h.filter _

theorem pairwise_insert {m : Memory} (h : m.Pairwise (fun c d => c.1 < d.1)) (a : Nat) (v : Byte)
    (ha : ∀ c ∈ m, c.1 ≠ a) : (Memory.insert m a v).Pairwise (fun c d => c.1 < d.1) := by
  induction m with
  | nil => simp [Memory.insert]
  | cons c rest ih =>
    obtain ⟨hc, hrest⟩ := List.pairwise_cons.mp h
    unfold Memory.insert
    split
    · rename_i hlt
      refine List.pairwise_cons.mpr ⟨?_, h⟩
      intro d hd
      rcases List.mem_cons.mp hd with rfl | hd
      · exact hlt
      · exact Nat.lt_trans hlt (hc d hd)
    · rename_i hnl
      refine List.pairwise_cons.mpr ⟨?_, ih hrest (fun d hd => ha d (by simp [hd]))⟩
      intro d hd
      rcases mem_insert.mp hd with rfl | hd
      · exact Nat.lt_of_le_of_ne (Nat.le_of_not_lt hnl) (ha c (by simp))
      · exact hc d hd

/-- A write inside the address space keeps the canonical form. -/
theorem wf_write {m : Memory} (h : Memory.wf m) {a : Nat} (ha : a < memSize) (v : Byte) :
    Memory.wf (Memory.write m a v) := by
  obtain ⟨hp, hm⟩ := h
  unfold Memory.write
  split
  · exact ⟨pairwise_erase hp a, fun c hc => hm c (mem_erase.mp hc).1⟩
  · rename_i hv
    refine ⟨pairwise_insert (pairwise_erase hp a) a v (fun c hc => (mem_erase.mp hc).2), fun c hc => ?_⟩
    rcases mem_insert.mp hc with rfl | hc
    · exact ⟨ha, hv⟩
    · exact hm c (mem_erase.mp hc).1

theorem wf_nil : Memory.wf [] := by simp [Memory.wf]

end Memory

/-- A store of the engine keeps the canonical form: every address it forms is a byte (R45). -/
theorem State.writeByte_wf {s : State} (h : s.mem.wf) (a v : Byte) : (s.writeByte a v).mem.wf :=
  Memory.wf_write h (by unfold memSize; omega) v

theorem State.writeBytes_wf {s : State} (h : s.mem.wf) (bytes : List Byte) (a : Byte) :
    (s.writeBytes a bytes).mem.wf := by
  induction bytes generalizing s a with
  | nil => exact h
  | cons v rest ih => exact ih (State.writeByte_wf h a v) _

/-- Memory right after construction lists nothing, which is canonical. -/
theorem State.construct_wf (cfg : Config) : (State.construct cfg).mem.wf := Memory.wf_nil

end Sys2Proof.Machine
end

