-- ==== Sys2Proof/Laws/Ops.lean ====
section
/-! SUPPORT. One lemma per shared operation that says everything it can do: narrowing, register operands, the program
counter past 255, pushes, and how a handler ends a cycle. -/

namespace Sys2Proof.Machine

/-! ### Narrowing -/

/-- `wrap8` is the mathematical modulus (R8). -/
theorem wrap8_toNat (v : Int) : (wrap8 v).toNat = (v % 256).toNat := by
  simp [wrap8, BitVec.toNat_ofInt]

theorem wrap8_natCast (n : Nat) : wrap8 (n : Int) = BitVec.ofNat 8 n := by
  apply BitVec.eq_of_toNat_eq
  rw [wrap8_toNat, BitVec.toNat_ofNat]
  omega

/-- Adding bytes exactly and narrowing is the machine addition of bytes (R101). -/
theorem aluAdd_eq (p q : Byte) : aluAdd p q = p + q := by
  apply BitVec.eq_of_toNat_eq
  rw [aluAdd, wrap8_toNat, BitVec.toNat_add]
  omega

theorem aluSub_eq (p q : Byte) : aluSub p q = p - q := by
  apply BitVec.eq_of_toNat_eq
  rw [aluSub, wrap8_toNat, BitVec.toNat_sub]
  omega

theorem aluMul_eq (p q : Byte) : aluMul p q = p * q := by
  apply BitVec.eq_of_toNat_eq
  rw [aluMul, wrap8_toNat, BitVec.toNat_mul]
  norm_cast

/-- The quotient fits in a byte, since it never exceeds the dividend (R104). -/
theorem aluDiv_toNat (p q : Byte) : (aluDiv p q).toNat = p.toNat / q.toNat := by
  have h : p.toNat / q.toNat ≤ p.toNat := Nat.div_le_self _ _
  have hp := p.isLt
  rw [aluDiv, BitVec.toNat_ofNat, Nat.mod_eq_of_lt (by omega)]

/-! ### Register operands -/

theorem regByte_toNat (r : Fin 8) : (regByte r).toNat = r.val := by
  have := r.isLt
  simp [regByte]; omega

/-- The byte that names a register names it. -/
@[simp] theorem reg_regByte (r : Fin 8) : reg (regByte r) = .ok r := by
  have h : (regByte r).toNat ≤ 7 := by rw [regByte_toNat]; omega
  rw [reg, dif_pos h]
  congr 1
  exact Fin.ext (regByte_toNat r)

/-- A byte above 7 names no register (R87). -/
theorem reg_of_gt {b : Byte} (h : 7 < b.toNat) : reg b = .error (.registerIndexOutOfRange b) := by
  rw [reg, dif_neg (by omega)]

/-- Everything `reg` can answer (R87). -/
theorem reg_eq_ok {b : Byte} {r : Fin 8} : reg b = .ok r ↔ b = regByte r := by
  constructor
  · intro h
    unfold reg at h
    split at h
    · injection h with h
      subst h
      apply BitVec.eq_of_toNat_eq
      rw [regByte_toNat]
    · cases h
  · rintro rfl; exact reg_regByte r

theorem reg_eq_error {b : Byte} {c : FaultCause} :
    reg b = .error c ↔ 7 < b.toNat ∧ c = .registerIndexOutOfRange b := by
  unfold reg
  split
  · simp; omega
  · simp [eq_comm]; omega

theorem regByte_injective {q r : Fin 8} (h : regByte q = regByte r) : q = r := by
  apply Fin.ext
  rw [← regByte_toNat, ← regByte_toNat, h]

theorem exists_regByte {b : Byte} (h : b.toNat ≤ 7) : ∃ r : Fin 8, b = regByte r :=
  ⟨⟨b.toNat, by omega⟩, BitVec.eq_of_toNat_eq (by rw [regByte_toNat])⟩

/-! ### The program counter past 255 -/

/-- Everything `advance` can answer with an address (R86): the address mod 256, where it may be passed. -/
theorem State.advance_eq_ok {s : State} {n : Nat} {a : Byte} :
    s.advance n = .ok a ↔ s.Continues n ∧ a = BitVec.ofNat 8 (s.pc.toNat + n) := by
  have hw : wrap8 ((s.pc.toNat : Int) + n) = BitVec.ofNat 8 (s.pc.toNat + n) := by
    rw [← Int.natCast_add, wrap8_natCast]
  unfold State.advance State.Continues
  split
  · rename_i h; simp [h, hw, eq_comm]
  · rename_i h
    split
    · simp [h]; omega
    · simp [h, eq_comm]; omega

/-- Everything `advance` can raise (R86): only under `fault`, and only past 255. -/
theorem State.advance_eq_error {s : State} {n : Nat} {c : FaultCause} :
    s.advance n = .error c ↔
      s.cfg.pcOverflow = .fault ∧ 255 < s.pc.toNat + n ∧ c = .addressOutOfRange (s.pc.toNat + n) := by
  unfold State.advance
  split
  · rename_i h; simp [h]
  · rename_i h
    split
    · rename_i hgt; simp [h, eq_comm]; omega
    · simp [h]; omega

theorem State.nextPC_eq_ok {s : State} {n : Nat} {a : Byte} :
    s.nextPC n = .ok a ↔ s.Continues n ∧ a = BitVec.ofNat 8 (s.pc.toNat + n) := State.advance_eq_ok

theorem State.nextPC_eq_error {s : State} {n : Nat} {c : FaultCause} :
    s.nextPC n = .error c ↔
      s.cfg.pcOverflow = .fault ∧ 255 < s.pc.toNat + n ∧ c = .addressOutOfRange (s.pc.toNat + n) :=
  State.advance_eq_error

theorem State.nextPC_of_continues {s : State} {n : Nat} (h : s.Continues n) :
    s.nextPC n = .ok (BitVec.ofNat 8 (s.pc.toNat + n)) := State.nextPC_eq_ok.mpr ⟨h, rfl⟩

theorem pcAdvanced_of_pc {s t : State} {n : Nat} (h : t.pc = BitVec.ofNat 8 (s.pc.toNat + n)) : PcAdvanced s t n := by
  rw [PcAdvanced, h, BitVec.toNat_ofNat]

/-! ### Memory and stack -/

/-- A read gives what the last write to that address left there (R46). -/
theorem State.readByte_writeByte (s : State) (a b v : Byte) :
    (s.writeByte a v).readByte b = if b = a then v else s.readByte b := by
  rw [State.readByte, State.writeByte_mem, Memory.read_write]
  simp [State.readByte, BitVec.toNat_inj]

theorem State.pushAddr_toNat (s : State) : s.pushAddr.toNat = (s.sp.toNat + 255) % 256 := by
  simp only [State.pushAddr, State.decSp, State.sp, State.getReg_setReg_self, wrap8_toNat]
  omega

theorem State.getReg_decSp (s : State) (q : Fin 8) : s.decSp.getReg q = if q = 7 then s.pushAddr else s.getReg q := by
  simp only [State.decSp, State.getReg_setReg, State.pushAddr, State.sp, spIndex, if_pos]

/-- Everything a push does to the registers (R131, R133). -/
theorem State.getReg_push (s : State) (value : State → Byte) (q : Fin 8) :
    (s.push value).getReg q = if q = 7 then s.pushAddr else s.getReg q := by
  rw [State.push, State.getReg_writeByte, State.getReg_decSp]

/-- Everything a push does to memory (R131, R133). -/
theorem State.readByte_push (s : State) (value : State → Byte) (a : Byte) :
    (s.push value).readByte a = if a = s.pushAddr then value s.decSp else s.readByte a := by
  rw [State.push, State.readByte_writeByte]; rfl

@[simp] theorem State.push_cfg (s : State) (value : State → Byte) : (s.push value).cfg = s.cfg := rfl
@[simp] theorem State.push_pc (s : State) (value : State → Byte) : (s.push value).pc = s.pc := rfl
@[simp] theorem State.push_flags (s : State) (value : State → Byte) : (s.push value).flags = s.flags := rfl
@[simp] theorem State.push_ir (s : State) (value : State → Byte) : (s.push value).ir = s.ir := rfl
@[simp] theorem State.push_run (s : State) (value : State → Byte) : (s.push value).run = s.run := rfl
@[simp] theorem State.push_out (s : State) (value : State → Byte) : (s.push value).out = s.out := rfl

theorem State.push_wf {s : State} (h : s.mem.wf) (value : State → Byte) : (s.push value).mem.wf :=
  State.writeByte_wf (s := s.decSp) h _ _

@[simp] theorem State.incSp_cfg (s : State) : s.incSp.cfg = s.cfg := rfl
@[simp] theorem State.incSp_pc (s : State) : s.incSp.pc = s.pc := rfl
@[simp] theorem State.incSp_flags (s : State) : s.incSp.flags = s.flags := rfl
@[simp] theorem State.incSp_ir (s : State) : s.incSp.ir = s.ir := rfl
@[simp] theorem State.incSp_mem (s : State) : s.incSp.mem = s.mem := rfl
@[simp] theorem State.incSp_run (s : State) : s.incSp.run = s.run := rfl
@[simp] theorem State.incSp_out (s : State) : s.incSp.out = s.out := rfl
@[simp] theorem State.readByte_incSp (s : State) (a : Byte) : s.incSp.readByte a = s.readByte a := rfl

/-- Everything an increment of SP does to the registers (R132, R134). -/
theorem State.getReg_incSp (s : State) (q : Fin 8) :
    s.incSp.getReg q = if q = 7 then BitVec.ofNat 8 (s.sp.toNat + 1) else s.getReg q := by
  have hw : wrap8 ((s.sp.toNat : Int) + 1) = BitVec.ofNat 8 (s.sp.toNat + 1) := by
    rw [← wrap8_natCast]; norm_cast
  simp only [State.incSp, State.getReg_setReg, spIndex, hw]

/-! ### How a handler ends -/

theorem bind_eq_ok {ε α β : Type} {x : Except ε α} {f : α → Except ε β} {b : β} :
    (x >>= f) = .ok b ↔ ∃ a, x = .ok a ∧ f a = .ok b := by
  cases x <;> simp [bind, Except.bind]

theorem bind_eq_error {ε α β : Type} {x : Except ε α} {f : α → Except ε β} {e : ε} :
    (x >>= f) = .error e ↔ x = .error e ∨ ∃ a, x = .ok a ∧ f a = .error e := by
  cases x <;> simp [bind, Except.bind]

/-- A handler that completes commits its state, one that raises takes the fault: there is no other end (R85). -/
theorem State.complete_eq_next {s t : State} {handler : Except FaultCause State} :
    s.complete handler = .next t ↔ handler = .ok t ∨ ∃ c, handler = .error c ∧ t = s.raise c := by
  cases handler <;> simp [State.complete, eq_comm]

/-- Everything taking a fault does (R85, R151, R152). -/
theorem State.raise_faultTaken (s : State) (c : FaultCause) : FaultTaken s (s.raise c) c :=
  ⟨rfl, rfl, rfl, rfl, rfl, rfl, fun _ => rfl, fun _ => rfl⟩

end Sys2Proof.Machine
end

