-- ==== Sys2Proof/Laws/Exec.lean ====
section
/-! SUPPORT. What a handler can do, said once for every instruction: it commits the state of its rule, or it takes one of
the faults it may raise. Later proofs cite `exec_eq_next` and do not unfold the meanings. -/

namespace Sys2Proof.Machine

/-- The state a handler commits, with the operands its rule reads (one line per instruction rule). -/
def Commits (i : Instr) (s t : State) : Prop :=
  match i with
  | .ldi r v   => ∃ d, r = regByte d ∧ ∃ n, s.nextPC 3 = .ok n ∧ t = (s.setReg d v).setPc n
  | .prn r     => ∃ d, r = regByte d ∧ ∃ n, s.nextPC 2 = .ok n ∧ t = (s.emit .numeric (s.getReg d)).setPc n
  | .pra r     => ∃ d, r = regByte d ∧ ∃ n, s.nextPC 2 = .ok n ∧ t = (s.emit .character (s.getReg d)).setPc n
  | .add rA rB => ∃ a, rA = regByte a ∧ ∃ b, rB = regByte b ∧ ∃ n, s.nextPC 3 = .ok n ∧
      t = (s.setReg a (aluAdd (s.getReg a) (s.getReg b))).setPc n
  | .sub rA rB => ∃ a, rA = regByte a ∧ ∃ b, rB = regByte b ∧ ∃ n, s.nextPC 3 = .ok n ∧
      t = (s.setReg a (aluSub (s.getReg a) (s.getReg b))).setPc n
  | .mul rA rB => ∃ a, rA = regByte a ∧ ∃ b, rB = regByte b ∧ ∃ n, s.nextPC 3 = .ok n ∧
      t = (s.setReg a (aluMul (s.getReg a) (s.getReg b))).setPc n
  | .div rA rB => ∃ a, rA = regByte a ∧ ∃ b, rB = regByte b ∧ s.getReg b ≠ 0#8 ∧ ∃ n, s.nextPC 3 = .ok n ∧
      t = (s.setReg a (aluDiv (s.getReg a) (s.getReg b))).setPc n
  | .cmp rA rB => ∃ a, rA = regByte a ∧ ∃ b, rB = regByte b ∧ ∃ n, s.nextPC 3 = .ok n ∧
      t = (s.compare (s.getReg a) (s.getReg b)).setPc n
  | .push r    => ∃ d, r = regByte d ∧ ∃ n, s.nextPC 2 = .ok n ∧ t = (s.push (fun u => u.getReg d)).setPc n
  | .pop r     => ∃ d, r = regByte d ∧ ∃ n, s.nextPC 2 = .ok n ∧ t = (s.setReg d s.stackTop).incSp.setPc n
  | .call r    => ∃ d, r = regByte d ∧ ∃ n, s.nextPC 2 = .ok n ∧
      t = (s.push (fun _ => n)).setPc ((s.push (fun _ => n)).getReg d)
  | .ret       => t = (s.setPc s.stackTop).incSp
  | .jmp r     => ∃ d, r = regByte d ∧ t = s.setPc (s.getReg d)
  | .jeq r     => (s.flags.E = true ∧ ∃ d, r = regByte d ∧ t = s.setPc (s.getReg d)) ∨
      (s.flags.E = false ∧ ∃ n, s.nextPC 2 = .ok n ∧ t = s.setPc n)
  | .jne r     => (s.flags.E = false ∧ ∃ d, r = regByte d ∧ t = s.setPc (s.getReg d)) ∨
      (s.flags.E = true ∧ ∃ n, s.nextPC 2 = .ok n ∧ t = s.setPc n)
  | .hlt       => t = s.setRun .halted

/-- What a handler may raise (R150): never an illegal instruction, never the reserved code 2. -/
def MayRaise (i : Instr) (s : State) (c : FaultCause) : Prop :=
  match c with
  | .illegalInstruction             => False
  | .unsupportedArithmeticOperation => False
  | .divisionByZero d               => (∃ rA, i = .div rA (regByte d)) ∧ s.getReg d = 0#8
  | .registerIndexOutOfRange b      => b ∈ usedOperands i s ∧ 7 < b.toNat
  | .addressOutOfRange addr         => s.cfg.pcOverflow = .fault ∧ 255 < addr ∧ addr ≤ s.pc.toNat + 3

theorem State.checkDivisor_eq_ok {s : State} {b : Fin 8} {u : Unit} : s.checkDivisor b = .ok u ↔ s.getReg b ≠ 0#8 := by
  unfold State.checkDivisor
  split <;> simp_all

theorem State.checkDivisor_eq_error {s : State} {b : Fin 8} {c : FaultCause} :
    s.checkDivisor b = .error c ↔ s.getReg b = 0#8 ∧ c = .divisionByZero b := by
  unfold State.checkDivisor
  split <;> simp_all [eq_comm]

theorem ok_eq_ok {ε α : Type} {a b : α} : (Except.ok a : Except ε α) = .ok b ↔ b = a := by
  simp [eq_comm]

theorem ok_ne_error {ε α : Type} {a : α} {e : ε} : (Except.ok a : Except ε α) = .error e ↔ False := by
  simp

/-- A used register operand above 7 may raise its fault. -/
theorem MayRaise.operand {i : Instr} {s : State} {b : Byte} {c : FaultCause} (hb : b ∈ usedOperands i s)
    (h : reg b = .error c) : MayRaise i s c := by
  obtain ⟨h7, rfl⟩ := reg_eq_error.mp h
  exact ⟨hb, h7⟩

/-- A sequential successor past 255 may raise its fault. -/
theorem MayRaise.successor {i : Instr} {s : State} {n : Nat} {c : FaultCause} (hn : n ≤ 3)
    (h : s.nextPC n = .error c) : MayRaise i s c := by
  obtain ⟨hf, hgt, rfl⟩ := State.nextPC_eq_error.mp h
  exact ⟨hf, hgt, by omega⟩

theorem State.print_eq_next {s t : State} {kind : OutKind} {r : Byte} (h : s.print kind r = .next t) :
    (∃ d, r = regByte d ∧ ∃ n, s.nextPC 2 = .ok n ∧ t = (s.emit kind (s.getReg d)).setPc n) ∨
      ∃ c, (reg r = .error c ∨ s.nextPC 2 = .error c) ∧ t = s.raise c := by
  rcases State.complete_eq_next.mp h with e | ⟨c, e, rfl⟩
  · simp only [bind_eq_ok, reg_eq_ok, ok_eq_ok] at e
    exact .inl e
  · simp only [bind_eq_error, ok_ne_error, and_false, exists_false, or_false] at e
    exact .inr ⟨c, e.imp_right (fun ⟨_, _, e⟩ => e), rfl⟩

theorem State.arith_eq_next {s t : State} {op : Byte → Byte → Byte} {rA rB : Byte} (h : s.arith op rA rB = .next t) :
    (∃ a, rA = regByte a ∧ ∃ b, rB = regByte b ∧ ∃ n, s.nextPC 3 = .ok n ∧
      t = (s.setReg a (op (s.getReg a) (s.getReg b))).setPc n) ∨
      ∃ c, (reg rA = .error c ∨ reg rB = .error c ∨ s.nextPC 3 = .error c) ∧ t = s.raise c := by
  rcases State.complete_eq_next.mp h with e | ⟨c, e, rfl⟩
  · simp only [bind_eq_ok, reg_eq_ok, ok_eq_ok] at e
    exact .inl e
  · simp only [bind_eq_error, ok_ne_error, and_false, exists_false, or_false] at e
    refine .inr ⟨c, ?_, rfl⟩
    rcases e with e | ⟨_, _, e | ⟨_, _, e⟩⟩ <;> simp [e]

theorem State.branch_eq_next {s t : State} {taken : Bool} {r : Byte} (h : s.branch taken r = .next t) :
    (taken = true ∧ ∃ d, r = regByte d ∧ t = s.setPc (s.getReg d)) ∨
      (taken = false ∧ ∃ n, s.nextPC 2 = .ok n ∧ t = s.setPc n) ∨
      ∃ c, (taken = true ∧ reg r = .error c ∨ s.nextPC 2 = .error c) ∧ t = s.raise c := by
  rcases State.complete_eq_next.mp h with e | ⟨c, e, rfl⟩ <;> cases taken <;>
    simp only [if_true, Bool.false_eq_true, if_false, bind_eq_ok, bind_eq_error, reg_eq_ok, ok_eq_ok, ok_ne_error,
      and_false, exists_false, or_false] at e
  · exact .inr (.inl ⟨rfl, e⟩)
  · exact .inl ⟨rfl, e⟩
  · exact .inr (.inr ⟨c, .inr e, rfl⟩)
  · exact .inr (.inr ⟨c, .inl ⟨rfl, e⟩, rfl⟩)

/-- Every handler commits or raises. -/
theorem exec_eq_next {i : Instr} {s t : State} (h : exec i s = .next t) :
    Commits i s t ∨ ∃ c, MayRaise i s c ∧ t = s.raise c := by
  cases i with
  | ldi r v =>
    rcases State.complete_eq_next.mp h with e | ⟨c, e, rfl⟩
    · simp only [bind_eq_ok, reg_eq_ok, ok_eq_ok] at e
      exact .inl e
    · simp only [bind_eq_error, ok_ne_error, and_false, exists_false, or_false] at e
      refine .inr ⟨c, ?_, rfl⟩
      rcases e with e | ⟨_, _, e⟩
      · exact .operand (by simp [usedOperands, Instr.registerOperands]) e
      · exact .successor (by omega) e
  | prn r =>
    rcases State.print_eq_next h with e | ⟨c, e | e, rfl⟩
    · exact .inl e
    · exact .inr ⟨c, .operand (by simp [usedOperands, Instr.registerOperands]) e, rfl⟩
    · exact .inr ⟨c, .successor (by omega) e, rfl⟩
  | pra r =>
    rcases State.print_eq_next h with e | ⟨c, e | e, rfl⟩
    · exact .inl e
    · exact .inr ⟨c, .operand (by simp [usedOperands, Instr.registerOperands]) e, rfl⟩
    · exact .inr ⟨c, .successor (by omega) e, rfl⟩
  | add rA rB =>
    rcases State.arith_eq_next h with e | ⟨c, e | e | e, rfl⟩
    · exact .inl e
    · exact .inr ⟨c, .operand (by simp [usedOperands, Instr.registerOperands]) e, rfl⟩
    · exact .inr ⟨c, .operand (by simp [usedOperands, Instr.registerOperands]) e, rfl⟩
    · exact .inr ⟨c, .successor (by omega) e, rfl⟩
  | sub rA rB =>
    rcases State.arith_eq_next h with e | ⟨c, e | e | e, rfl⟩
    · exact .inl e
    · exact .inr ⟨c, .operand (by simp [usedOperands, Instr.registerOperands]) e, rfl⟩
    · exact .inr ⟨c, .operand (by simp [usedOperands, Instr.registerOperands]) e, rfl⟩
    · exact .inr ⟨c, .successor (by omega) e, rfl⟩
  | mul rA rB =>
    rcases State.arith_eq_next h with e | ⟨c, e | e | e, rfl⟩
    · exact .inl e
    · exact .inr ⟨c, .operand (by simp [usedOperands, Instr.registerOperands]) e, rfl⟩
    · exact .inr ⟨c, .operand (by simp [usedOperands, Instr.registerOperands]) e, rfl⟩
    · exact .inr ⟨c, .successor (by omega) e, rfl⟩
  | div rA rB =>
    rcases State.complete_eq_next.mp h with e | ⟨c, e, rfl⟩
    · simp only [bind_eq_ok, reg_eq_ok, ok_eq_ok, State.checkDivisor_eq_ok] at e
      obtain ⟨a, ha, b, hb, _, hz, n, hn, ht⟩ := e
      exact .inl ⟨a, ha, b, hb, hz, n, hn, ht⟩
    · simp only [bind_eq_error, ok_ne_error, and_false, exists_false, or_false] at e
      refine .inr ⟨c, ?_, rfl⟩
      rcases e with e | ⟨_, _, e | ⟨b, hb, e | ⟨_, _, e⟩⟩⟩
      · exact .operand (by simp [usedOperands, Instr.registerOperands]) e
      · exact .operand (by simp [usedOperands, Instr.registerOperands]) e
      · obtain ⟨hz, rfl⟩ := State.checkDivisor_eq_error.mp e
        exact ⟨⟨rA, by rw [reg_eq_ok.mp hb]⟩, hz⟩
      · exact .successor (by omega) e
  | cmp rA rB =>
    rcases State.complete_eq_next.mp h with e | ⟨c, e, rfl⟩
    · simp only [bind_eq_ok, reg_eq_ok, ok_eq_ok] at e
      exact .inl e
    · simp only [bind_eq_error, ok_ne_error, and_false, exists_false, or_false] at e
      refine .inr ⟨c, ?_, rfl⟩
      rcases e with e | ⟨_, _, e | ⟨_, _, e⟩⟩
      · exact .operand (by simp [usedOperands, Instr.registerOperands]) e
      · exact .operand (by simp [usedOperands, Instr.registerOperands]) e
      · exact .successor (by omega) e
  | push r =>
    rcases State.complete_eq_next.mp h with e | ⟨c, e, rfl⟩
    · simp only [bind_eq_ok, reg_eq_ok, ok_eq_ok] at e
      exact .inl e
    · simp only [bind_eq_error, ok_ne_error, and_false, exists_false, or_false] at e
      refine .inr ⟨c, ?_, rfl⟩
      rcases e with e | ⟨_, _, e⟩
      · exact .operand (by simp [usedOperands, Instr.registerOperands]) e
      · exact .successor (by omega) e
  | pop r =>
    rcases State.complete_eq_next.mp h with e | ⟨c, e, rfl⟩
    · simp only [bind_eq_ok, reg_eq_ok, ok_eq_ok] at e
      exact .inl e
    · simp only [bind_eq_error, ok_ne_error, and_false, exists_false, or_false] at e
      refine .inr ⟨c, ?_, rfl⟩
      rcases e with e | ⟨_, _, e⟩
      · exact .operand (by simp [usedOperands, Instr.registerOperands]) e
      · exact .successor (by omega) e
  | call r =>
    rcases State.complete_eq_next.mp h with e | ⟨c, e, rfl⟩
    · simp only [bind_eq_ok, reg_eq_ok, ok_eq_ok] at e
      exact .inl e
    · simp only [bind_eq_error, ok_ne_error, and_false, exists_false, or_false] at e
      refine .inr ⟨c, ?_, rfl⟩
      rcases e with e | ⟨_, _, e⟩
      · exact .operand (by simp [usedOperands, Instr.registerOperands]) e
      · exact .successor (by omega) e
  | ret =>
    have e : Host.Outcome.next ((s.setPc s.stackTop).incSp) = Host.Outcome.next t := h
    injection e with e
    exact .inl e.symm
  | jmp r =>
    rcases State.branch_eq_next h with ⟨_, e⟩ | ⟨e, _⟩ | ⟨c, ⟨_, e⟩ | e, rfl⟩
    · exact .inl e
    · cases e
    · exact .inr ⟨c, .operand (by simp [usedOperands, Instr.registerOperands]) e, rfl⟩
    · exact .inr ⟨c, .successor (by omega) e, rfl⟩
  | jeq r =>
    rcases State.branch_eq_next h with e | e | ⟨c, ⟨he, e⟩ | e, rfl⟩
    · exact .inl (.inl e)
    · exact .inl (.inr e)
    · exact .inr ⟨c, .operand (by simp [usedOperands, he]) e, rfl⟩
    · exact .inr ⟨c, .successor (by omega) e, rfl⟩
  | jne r =>
    rcases State.branch_eq_next h with ⟨he, e⟩ | ⟨he, e⟩ | ⟨c, ⟨he, e⟩ | e, rfl⟩
    · exact .inl (.inl ⟨by simpa using he, e⟩)
    · exact .inl (.inr ⟨by simpa using he, e⟩)
    · exact .inr ⟨c, .operand (by simp at he; simp [usedOperands, he]) e, rfl⟩
    · exact .inr ⟨c, .successor (by omega) e, rfl⟩
  | hlt =>
    have e : Host.Outcome.next (s.setRun .halted) = Host.Outcome.next t := h
    injection e with e
    exact .inl e.symm

/-- A state that the rule of an instruction commits is its next state: the way to show that an instruction completes. -/
theorem exec_of_commits {i : Instr} {s t : State} (h : Commits i s t) : exec i s = .next t := by
  cases i <;> simp only [Commits] at h
  case ret => subst h; rfl
  case hlt => subst h; rfl
  case jmp =>
    obtain ⟨d, rfl, rfl⟩ := h
    simp [exec, execJmp, State.branch, State.complete, bind, Except.bind]
  case jeq =>
    rcases h with ⟨he, d, rfl, rfl⟩ | ⟨he, n, hn, rfl⟩ <;>
      simp [exec, execJeq, State.branch, State.complete, bind, Except.bind, *]
  case jne =>
    rcases h with ⟨he, d, rfl, rfl⟩ | ⟨he, n, hn, rfl⟩ <;>
      simp [exec, execJne, State.branch, State.complete, bind, Except.bind, *]
  case div =>
    obtain ⟨a, rfl, b, rfl, hz, n, hn, rfl⟩ := h
    simp [exec, execDiv, State.checkDivisor, State.complete, bind, Except.bind, hz, hn]
  case add | sub | mul | cmp =>
    obtain ⟨a, rfl, b, rfl, n, hn, rfl⟩ := h
    simp [exec, execAdd, execSub, execMul, execCmp, State.arith, State.complete, bind, Except.bind, hn]
  all_goals
    obtain ⟨d, rfl, n, hn, rfl⟩ := h
    simp [exec, execLdi, execPrn, execPra, State.print, execPush, execPop, execCall, State.complete, bind, Except.bind,
      imm, hn]

/-- A handler always answers a next state: no instruction of this hardware stops the machine (R84, R85). -/
theorem exec_total (i : Instr) (s : State) : ∃ t, exec i s = .next t := by
  have hc : ∀ h : Except FaultCause State, ∃ t, s.complete h = .next t := by
    intro h; cases h <;> exact ⟨_, rfl⟩
  cases i <;> first | exact hc _ | exact ⟨_, rfl⟩

end Sys2Proof.Machine
end

