-- ==== Sys2Proof/Laws/PerInstr.lean ====
section
/-! SUPPORT. Facts about every instruction as syntax, one lemma per constructor: its encoding has its length (R60, R61). -/

namespace Sys2Proof.Laws.EncodeLength

theorem one_le_length (i : Instr) : 1 ≤ i.length := by cases i <;> simp [Instr.length, Instr.mnemonic, Mnemonic.length, Mnemonic.format, Format.length]

theorem length_le_three (i : Instr) : i.length ≤ 3 := by cases i <;> simp [Instr.length, Instr.mnemonic, Mnemonic.length, Mnemonic.format, Format.length]

/-- Under any opcode map the encoding has the length of the mnemonic, 1 to 3 bytes. -/
def Statement (i : Instr) : Prop :=
  ∀ map : OpcodeMap, (encode map i).length = i.length ∧ 1 ≤ i.length ∧ i.length ≤ 3

theorem ldi (r imm8 : Byte) : Statement (.ldi r imm8) := fun _ => ⟨rfl, one_le_length _, length_le_three _⟩
theorem prn (r : Byte) : Statement (.prn r) := fun _ => ⟨rfl, one_le_length _, length_le_three _⟩
theorem pra (r : Byte) : Statement (.pra r) := fun _ => ⟨rfl, one_le_length _, length_le_three _⟩
theorem add (rA rB : Byte) : Statement (.add rA rB) := fun _ => ⟨rfl, one_le_length _, length_le_three _⟩
theorem sub (rA rB : Byte) : Statement (.sub rA rB) := fun _ => ⟨rfl, one_le_length _, length_le_three _⟩
theorem mul (rA rB : Byte) : Statement (.mul rA rB) := fun _ => ⟨rfl, one_le_length _, length_le_three _⟩
theorem div (rA rB : Byte) : Statement (.div rA rB) := fun _ => ⟨rfl, one_le_length _, length_le_three _⟩
theorem cmp (rA rB : Byte) : Statement (.cmp rA rB) := fun _ => ⟨rfl, one_le_length _, length_le_three _⟩
theorem push (r : Byte) : Statement (.push r) := fun _ => ⟨rfl, one_le_length _, length_le_three _⟩
theorem pop (r : Byte) : Statement (.pop r) := fun _ => ⟨rfl, one_le_length _, length_le_three _⟩
theorem call (r : Byte) : Statement (.call r) := fun _ => ⟨rfl, one_le_length _, length_le_three _⟩
theorem ret : Statement .ret := fun _ => ⟨rfl, one_le_length _, length_le_three _⟩
theorem jmp (r : Byte) : Statement (.jmp r) := fun _ => ⟨rfl, one_le_length _, length_le_three _⟩
theorem jeq (r : Byte) : Statement (.jeq r) := fun _ => ⟨rfl, one_le_length _, length_le_three _⟩
theorem jne (r : Byte) : Statement (.jne r) := fun _ => ⟨rfl, one_le_length _, length_le_three _⟩
theorem hlt : Statement .hlt := fun _ => ⟨rfl, one_le_length _, length_le_three _⟩

end Sys2Proof.Laws.EncodeLength
end

