-- ==== Sys2Proof/Laws/Step.lean ====
section
/-! SUPPORT. What one cycle can do, said once: it takes a fault of the fetch, or it runs the decoded instruction. -/

namespace Sys2Proof.Machine

@[simp] theorem State.fetchOpcode_ir (s : State) : s.fetchOpcode.ir = s.readByte s.pc := rfl
@[simp] theorem State.fetchOpcode_cfg (s : State) : s.fetchOpcode.cfg = s.cfg := rfl
@[simp] theorem State.fetchOpcode_pc (s : State) : s.fetchOpcode.pc = s.pc := rfl
@[simp] theorem State.fetchOpcode_flags (s : State) : s.fetchOpcode.flags = s.flags := rfl
@[simp] theorem State.fetchOpcode_mem (s : State) : s.fetchOpcode.mem = s.mem := rfl
@[simp] theorem State.fetchOpcode_run (s : State) : s.fetchOpcode.run = s.run := rfl
@[simp] theorem State.fetchOpcode_out (s : State) : s.fetchOpcode.out = s.out := rfl
@[simp] theorem State.getReg_fetchOpcode (s : State) (q : Fin 8) : s.fetchOpcode.getReg q = s.getReg q := rfl
@[simp] theorem State.readByte_fetchOpcode (s : State) (a : Byte) : s.fetchOpcode.readByte a = s.readByte a := rfl

/-- Everything one operand fetch can answer (R83, R86). -/
theorem State.fetchByte_eq_ok {s : State} {k : Nat} {b : Byte} :
    s.fetchByte k = .ok b ↔ s.Continues k ∧ b = s.readByte (BitVec.ofNat 8 (s.pc.toNat + k)) := by
  simp only [State.fetchByte, bind_eq_ok, ok_eq_ok, State.fetchAddr, State.advance_eq_ok]
  constructor
  · rintro ⟨a, ⟨hc, rfl⟩, rfl⟩; exact ⟨hc, rfl⟩
  · rintro ⟨hc, rfl⟩; exact ⟨_, ⟨hc, rfl⟩, rfl⟩

theorem State.fetchByte_eq_error {s : State} {k : Nat} {c : FaultCause} :
    s.fetchByte k = .error c ↔
      s.cfg.pcOverflow = .fault ∧ 255 < s.pc.toNat + k ∧ c = .addressOutOfRange (s.pc.toNat + k) := by
  simp only [State.fetchByte, bind_eq_error, ok_ne_error, State.fetchAddr, State.advance_eq_error, and_false,
    exists_false, or_false]

/-- What the operand fetch can raise (R86, R154): only under `fault`, and only past 255. -/
theorem State.fetchOperands_eq_error {s : State} {f : Format} {c : FaultCause} (h : s.fetchOperands f = .error c) :
    s.cfg.pcOverflow = .fault ∧ ∃ k, k ≤ 2 ∧ 255 < s.pc.toNat + k ∧ c = .addressOutOfRange (s.pc.toNat + k) := by
  cases f <;>
    simp only [State.fetchOperands, bind_eq_error, ok_ne_error, State.fetchByte_eq_error, and_false, exists_false,
      or_false] at h
  · obtain ⟨hf, h, rfl⟩ := h; exact ⟨hf, 1, by omega, h, rfl⟩
  all_goals
    rcases h with ⟨hf, h, rfl⟩ | ⟨_, _, hf, h, rfl⟩
    · exact ⟨hf, 1, by omega, h, rfl⟩
    · exact ⟨hf, 2, by omega, h, rfl⟩

/-- The operand bytes a complete fetch answers, by length (R83). -/
theorem State.fetchOperands_eq_ok {s : State} {f : Format} {ops : Byte × Byte} (h : s.fetchOperands f = .ok ops) :
    (2 ≤ f.length → s.Continues 1 ∧ ops.1 = s.readByte (BitVec.ofNat 8 (s.pc.toNat + 1))) ∧
    (3 ≤ f.length → s.Continues 2 ∧ ops.2 = s.readByte (BitVec.ofNat 8 (s.pc.toNat + 2))) := by
  cases f <;>
    simp only [State.fetchOperands, bind_eq_ok, ok_eq_ok, State.fetchByte_eq_ok] at h
  · simp [Format.length]
  · obtain ⟨a, ⟨ha, rfl⟩, rfl⟩ := h
    simp [Format.length, ha]
  all_goals
    obtain ⟨a, ⟨ha, rfl⟩, b, ⟨hb, rfl⟩, rfl⟩ := h
    simp [Format.length, ha, hb]

/-- What the fetch of a cycle can raise (R82, R83). -/
theorem State.fetchInstr_eq_error {s : State} {c : FaultCause} (h : s.fetchInstr = .error c) :
    (c = .illegalInstruction ∧ ∀ m, s.cfg.opcodeMap.code m ≠ s.ir) ∨
    (s.cfg.pcOverflow = .fault ∧ ∃ k, k ≤ 2 ∧ 255 < s.pc.toNat + k ∧ c = .addressOutOfRange (s.pc.toNat + k)) := by
  unfold State.fetchInstr at h
  split at h
  · rename_i hn
    injection h with h
    exact .inl ⟨h.symm, decodeOpcode_eq_none.mp hn⟩
  · simp only [bind_eq_error, ok_ne_error, and_false, exists_false, or_false] at h
    exact .inr (State.fetchOperands_eq_error h)

/-- A fetched instruction has the opcode in `ir` (R82, R84). -/
theorem State.fetchInstr_eq_ok {s : State} {i : Instr} (h : s.fetchInstr = .ok i) :
    s.ir = s.cfg.opcodeMap.code i.mnemonic := by
  unfold State.fetchInstr at h
  split at h
  · cases h
  · rename_i m hm
    simp only [bind_eq_ok, ok_eq_ok] at h
    obtain ⟨ops, _, rfl⟩ := h
    simp [code_of_decodeOpcode hm]

/-- Everything one cycle can do: from Running only, it takes a fault of the fetch or runs the decoded instruction. -/
theorem step_eq_next {s t : State} (h : step s = .next t) :
    s.run = .running ∧
      ((∃ c, s.fetchOpcode.fetchInstr = .error c ∧ t = s.fetchOpcode.raise c) ∨
       (∃ i, s.fetchOpcode.fetchInstr = .ok i ∧ exec i s.fetchOpcode = .next t)) := by
  unfold step at h
  split at h
  · cases h
  · cases h
  · rename_i hr
    refine ⟨hr, ?_⟩
    split at h
    · rename_i i hi; exact .inr ⟨i, hi, h⟩
    · rename_i c hc
      injection h with h
      exact .inl ⟨c, hc, h.symm⟩

end Sys2Proof.Machine
end

