-- ==== Sys2Proof/Tests/Slice0.lean ====
section
/-! SUPPORT. The model's own tests. Expected values come from spec/95_test_vectors.md (the vector is named) or are worked
out by hand from the cited rule. A witness_… theorem shows that the hypotheses of an obligation can be met together. -/

namespace Sys2Proof.Tests

open Sys2Proof Sys2Proof.Machine

/-! ### Builders -/

/-- The parameters of the vectors marked `[fault]`. -/
def faultConfig : Config := { opcodeMap := OpcodeMap.ls8, pcOverflow := .fault, injective := by decide }

/-- A newly constructed engine with bytes placed at an address and `pc` there. -/
def at_ (cfg : Config) (pc : Byte) (bytes : List Byte) : State :=
  ((State.construct cfg).writeBytes pc bytes).setPc pc

/-- The same under the default parameters. -/
def wrapAt (pc : Byte) (bytes : List Byte) : State := at_ defaultConfig pc bytes

/-- The same under `pcOverflow = fault`. -/
def faultAt (pc : Byte) (bytes : List Byte) : State := at_ faultConfig pc bytes

/-- A flag pattern (E, L, G). -/
def elg (e l g : Bool) : Flags := { E := e, L := l, G := g }

/-- The state one step gives. -/
def after (s : State) : Option State :=
  match step s with
  | .next t => some t
  | .fault _ => none
  | .refused _ => none

/-- The fault record one step ends in. -/
def failure (s : State) : Option FaultRecord :=
  match after s with
  | some t =>
    match t.run with
    | .failed record => some record
    | .running => none
    | .halted => none
  | none => none

/-! ### WellFormed: what each check refuses -/

theorem test_wellFormed_refuses_first_operand : ¬ (Instr.ldi 0x08#8 0x00#8).WellFormed := by decide
theorem test_wellFormed_refuses_second_operand : ¬ (Instr.add 0x00#8 0x08#8).WellFormed := by decide
theorem test_wellFormed_takes_r7_and_any_immediate : (Instr.ldi 0x07#8 0xFF#8).WellFormed := by decide
theorem test_injective_refuses_shared_opcode : ¬ { OpcodeMap.ls8 with hlt := 0x11#8 }.Injective := by decide
theorem test_config_refuses_shared_opcode :
    Config.ofMap { OpcodeMap.ls8 with hlt := 0x11#8 } .wrap = none ∧
      Config.ofMap OpcodeMap.ls8 .wrap = some defaultConfig := by decide

/-! ### Decoding: one word per constructor, written out from the table of R65 -/

theorem test_decode_ldi : decodeTableWord 24 0b000010000000000010000010 = some (.ldi 0x00#8 0x08#8) := by decide
theorem test_decode_prn : decodeTableWord 16 0b0000000001000111 = some (.prn 0x00#8) := by decide
theorem test_decode_pra : decodeTableWord 16 0b0000000101001000 = some (.pra 0x01#8) := by decide
theorem test_decode_add : decodeTableWord 24 0b000000010000000010100000 = some (.add 0x00#8 0x01#8) := by decide
theorem test_decode_sub : decodeTableWord 24 0b000000110000001010100001 = some (.sub 0x02#8 0x03#8) := by decide
theorem test_decode_mul : decodeTableWord 24 0b000000010000000010100010 = some (.mul 0x00#8 0x01#8) := by decide
theorem test_decode_div : decodeTableWord 24 0b000000010000100010100011 = some (.div 0x08#8 0x01#8) := by decide
theorem test_decode_cmp : decodeTableWord 24 0b000000010000000010100111 = some (.cmp 0x00#8 0x01#8) := by decide
theorem test_decode_push : decodeTableWord 16 0b0000011101000101 = some (.push 0x07#8) := by decide
theorem test_decode_pop : decodeTableWord 16 0b0000000101000110 = some (.pop 0x01#8) := by decide
theorem test_decode_call : decodeTableWord 16 0b0000000101010000 = some (.call 0x01#8) := by decide
theorem test_decode_ret : decodeTableWord 8 0b00010001 = some .ret := by decide
theorem test_decode_jmp : decodeTableWord 16 0b0000001101010100 = some (.jmp 0x03#8) := by decide
theorem test_decode_jeq : decodeTableWord 16 0b0000001001010101 = some (.jeq 0x02#8) := by decide
theorem test_decode_jne : decodeTableWord 16 0b0000001001010110 = some (.jne 0x02#8) := by decide
theorem test_decode_hlt : decodeTableWord 8 0b00000001 = some .hlt := by decide
/-- V-ILL-1, V-ILL-2, V-ILL-3, V-ILL-4. -/
theorem test_decode_illegal :
    decodeTableWord 8 0x00 = none ∧ decodeTableWord 8 0xA8 = none ∧ decodeTableWord 8 0x52 = none ∧
      decodeTableWord 8 0x83 = none := by decide
/-- The bits from `nbits` on are 0: a first byte alone has operand bytes of 0. -/
theorem test_decode_short_word : decodeTableWord 8 0xFFFF82 = some (.ldi 0x00#8 0x00#8) := by decide
theorem test_decode_missing_operand :
    decode OpcodeMap.ls8 [0x82#8, 0x00#8] = .error (.missingOperands .ldi) ∧ decode OpcodeMap.ls8 [] = .error .noBytes :=
  ⟨rfl, rfl⟩
theorem test_encode_cmp : encode OpcodeMap.ls8 (.cmp 0x00#8 0x01#8) = [0xA7#8, 0x00#8, 0x01#8] := by decide
theorem test_withFetchWord_runs_ret :
    (after (State.reset.withFetchWord 8 0x11)).map (fun t => (t.ir, t.pc, t.sp)) = some (0x11#8, 0x00#8, 0xF5#8) := by
  decide

/-! ### LDI, PRN, PRA -/

/-- V-LDI-4: an instruction that straddles 0xFF under `wrap`. -/
theorem test_ldi_straddles :
    (after ((wrapAt 0xFE#8 [0x82#8, 0x02#8, 0x99#8]))).map (fun t => (t.getReg 2, t.pc)) = some (0x99#8, 0x01#8) := by
  decide
/-- V-LDI-6 [fault]: the register check comes before the successor. -/
theorem test_ldi_register_check_first :
    failure (faultAt 0xFD#8 [0x82#8, 0x09#8, 0x07#8]) = some ⟨.registerIndexOutOfRange 0x09#8, 0xFD#8, 0x82#8⟩ := by
  decide
/-- V-PRN-2: the reset SP. -/
theorem test_prn_r7 :
    (after (wrapAt 0x00#8 [0x47#8, 0x07#8])).map (fun t => (t.out, t.pc)) = some ([⟨.numeric, 244#8⟩], 0x02#8) := by
  decide
/-- V-PRA-1. -/
theorem test_pra :
    (after ((wrapAt 0x00#8 [0x48#8, 0x01#8]).setReg 1 65#8)).map (fun t => (t.out, t.pc)) =
      some ([⟨.character, 65#8⟩], 0x02#8) := by decide

/-! ### ALU -/

/-- V-ADD-3: the same register as both operands. -/
theorem test_add_same_register :
    (after ((wrapAt 0x00#8 [0xA0#8, 0x00#8, 0x00#8]).setReg 0 200#8)).map (fun t => (t.getReg 0, t.pc)) =
      some (144#8, 0x03#8) := by decide
/-- V-ADD-5: operand 1 is reported first. -/
theorem test_add_reports_first_operand :
    failure (wrapAt 0x00#8 [0xA0#8, 0x09#8, 0x0C#8]) = some ⟨.registerIndexOutOfRange 0x09#8, 0x00#8, 0xA0#8⟩ := by
  decide
/-- V-SUB-1. -/
theorem test_sub_wraps :
    (after (((wrapAt 0x00#8 [0xA1#8, 0x02#8, 0x03#8]).setReg 2 3#8).setReg 3 5#8)).map (fun t => t.getReg 2) =
      some 254#8 := by decide
/-- V-MUL-3. -/
theorem test_mul_low_byte :
    (after (((wrapAt 0x00#8 [0xA2#8, 0x00#8, 0x01#8]).setReg 0 255#8).setReg 1 255#8)).map (fun t => t.getReg 0) =
      some 1#8 := by decide
/-- V-DIV-1. -/
theorem test_div_quotient :
    (after (((wrapAt 0x00#8 [0xA3#8, 0x00#8, 0x01#8]).setReg 0 100#8).setReg 1 7#8)).map (fun t => t.getReg 0) =
      some 14#8 := by decide
/-- V-DIV-10 [fault]: the zero check comes before the successor. -/
theorem test_div_zero_check_first :
    failure ((faultAt 0xFD#8 [0xA3#8, 0x00#8, 0x01#8]).setReg 0 4#8) =
      some ⟨.divisionByZero 1, 0xFD#8, 0xA3#8⟩ := by decide
/-- V-CMP-4: unsigned. -/
theorem test_cmp_unsigned :
    (after (((wrapAt 0x00#8 [0xA7#8, 0x00#8, 0x01#8]).setReg 0 128#8).setReg 1 127#8)).map (fun t => (t.flags, t.pc)) =
      some (elg false false true, 0x03#8) := by decide
/-- V-CMP-5: old flags overwritten. -/
theorem test_cmp_overwrites :
    (after (((wrapAt 0x00#8 [0xA7#8, 0x00#8, 0x00#8]).setReg 0 42#8).setFlags (elg false true false))).map
      (fun t => t.flags) = some (elg true false false) := by decide

/-! ### Branches -/

/-- V-JMP-4. -/
theorem test_jmp_r7 : (after (wrapAt 0x30#8 [0x54#8, 0x07#8])).map (fun t => t.pc) = some 0xF4#8 := by decide
/-- V-JMP-3 [fault]: the operand fetch. -/
theorem test_jmp_operand_past_top :
    failure (faultAt 0xFF#8 [0x54#8]) = some ⟨.addressOutOfRange 256, 0xFF#8, 0x54#8⟩ := by decide
/-- V-JEQ-3: not taken, so the operand is not checked. -/
theorem test_jeq_not_taken :
    (after ((wrapAt 0x0A#8 [0x55#8, 0x09#8]).setFlags (elg false false true))).map (fun t => (t.pc, t.run)) =
      some (0x0C#8, .running) := by decide
/-- V-JEQ-6 [fault]: taken, so the successor is not evaluated. -/
theorem test_jeq_taken_at_top :
    (after (((faultAt 0xFE#8 [0x55#8, 0x02#8]).setReg 2 0x40#8).setFlags (elg true false false))).map
      (fun t => (t.pc, t.run)) = some (0x40#8, .running) := by decide
/-- V-JNE-4. -/
theorem test_jne_taken_checks_operand :
    failure (wrapAt 0x0A#8 [0x56#8, 0x09#8]) = some ⟨.registerIndexOutOfRange 0x09#8, 0x0A#8, 0x56#8⟩ := by decide
/-- V-JNE-5: before any CMP, JNE is taken. -/
theorem test_jne_before_any_cmp :
    (after ((wrapAt 0x00#8 [0x56#8, 0x02#8]).setReg 2 0x30#8)).map (fun t => t.pc) = some 0x30#8 := by decide

/-! ### Stack -/

/-- V-PUSH-2: the decremented SP is stored. -/
theorem test_push_r7 :
    (after (wrapAt 0x00#8 [0x45#8, 0x07#8])).map (fun t => (t.sp, t.readByte 0xF3#8)) = some (0xF3#8, 0xF3#8) := by
  decide
/-- V-PUSH-3: SP wraps. -/
theorem test_push_wraps :
    (after (((wrapAt 0x10#8 [0x45#8, 0x00#8]).setReg 0 0x5A#8).setReg 7 0x00#8)).map
      (fun t => (t.sp, t.readByte 0xFF#8)) = some (0xFF#8, 0x5A#8) := by decide
/-- V-POP-2: loaded, then incremented. -/
theorem test_pop_r7 :
    (after (((wrapAt 0x00#8 [0x46#8, 0x07#8]).setReg 7 0xF3#8).writeByte 0xF3#8 0x20#8)).map (fun t => t.sp) =
      some 0x21#8 := by decide
/-- V-POP-3: SP wraps. -/
theorem test_pop_wraps :
    (after (((wrapAt 0x10#8 [0x46#8, 0x01#8]).setReg 7 0xFF#8).writeByte 0xFF#8 0x66#8)).map
      (fun t => (t.getReg 1, t.sp)) = some (0x66#8, 0x00#8) := by decide
/-- V-CALL-2: the target is read after the push. -/
theorem test_call_r7 :
    (after (wrapAt 0x05#8 [0x50#8, 0x07#8])).map (fun t => (t.sp, t.readByte 0xF3#8, t.pc)) =
      some (0xF3#8, 0x07#8, 0xF3#8) := by decide
/-- V-CALL-3 [fault]: nothing pushed. -/
theorem test_call_return_address_past_top :
    failure ((faultAt 0xFE#8 [0x50#8, 0x01#8]).setReg 1 0x20#8) = some ⟨.addressOutOfRange 256, 0xFE#8, 0x50#8⟩ := by
  decide
/-- V-RET-2: SP wraps. -/
theorem test_ret_wraps :
    (after (((wrapAt 0x20#8 [0x11#8]).setReg 7 0xFF#8).writeByte 0xFF#8 0x40#8)).map (fun t => (t.pc, t.sp)) =
      some (0x40#8, 0x00#8) := by decide
/-- V-RET-4 [fault]: RET at 0xFF does not fault. -/
theorem test_ret_at_top :
    (after (((faultAt 0xFF#8 [0x11#8]).setReg 7 0xF3#8).writeByte 0xF3#8 0x07#8)).map (fun t => (t.pc, t.sp)) =
      some (0x07#8, 0xF4#8) := by decide

/-! ### HLT, illegal bytes, ended runs -/

/-- V-HLT-2 [fault]: HLT at 0xFF does not fault. -/
theorem test_hlt_at_top :
    (after (faultAt 0xFF#8 [0x01#8])).map (fun t => (t.run, t.pc, t.ir)) = some (.halted, 0xFF#8, 0x01#8) := by decide
/-- V-ILL-2: an LS-8 AND byte. -/
theorem test_illegal_byte :
    failure (wrapAt 0x12#8 [0xA8#8]) = some ⟨.illegalInstruction, 0x12#8, 0xA8#8⟩ := by decide
/-- R80: a halted engine has no step. -/
theorem test_halted_has_no_step : step (State.reset.setRun .halted) = .fault .halted := rfl

/-! ### The host's side -/

/-- R93, and the example of R92. -/
theorem test_event_text :
    OutEvent.text ⟨.numeric, 244#8⟩ = ['2', '4', '4'] ∧ OutEvent.text ⟨.character, 65#8⟩ = ['A'] := by decide
/-- R73: a comment is stripped, blank and comment-only lines and lines that do not parse are skipped. -/
theorem test_image_of_text :
    imageOfText [['1', '0', '0', '0', '0', '0', '1', '0', ' ', '#', 'L'], [], ['#'], ['1', '2'],
      ['0', '0', '0', '0', '0', '0', '0', '1']] = [0x82#8, 0x01#8] := by decide
/-- R183. -/
theorem test_demo_image : demoImage OpcodeMap.ls8 = [0x82#8, 0x00#8, 0x08#8, 0x47#8, 0x00#8, 0x01#8] := by decide
/-- R71: the source's example. -/
theorem test_assembly :
    (Instr.ldi 0x00#8 0x08#8).assembly = "LDI R0,8" ∧ (Instr.prn 0x00#8).assembly = "PRN R0" ∧
      Instr.hlt.assembly = "HLT" := ⟨rfl, rfl, rfl⟩
/-- R158: load comes before run, and once. -/
theorem test_session_order :
    hostMove .run (.constructed State.reset) = none ∧ hostMove (.load []) (.loaded State.reset) = none := ⟨rfl, rfl⟩

/-! ### Witnesses for the obligations that have hypotheses -/

theorem witness_DecodeEncodeRoundTrip : OpcodeMap.ls8.Injective := by decide

theorem witness_DecodedBytesAreTheEncoding :
    decode OpcodeMap.ls8 [0x82#8, 0x07#8, 0xFF#8, 0x01#8] = .ok (.ldi 0x07#8 0xFF#8, [0x01#8]) := rfl

theorem witness_OpcodeDecodingInvertsTheMap :
    OpcodeMap.ls8.Injective ∧ decodeOpcode OpcodeMap.ls8 0x01#8 = some .hlt ∧ decodeOpcode OpcodeMap.ls8 0xFF#8 = none := by
  decide

theorem witness_LengthFollowsFromTheOpcode :
    decode OpcodeMap.ls8 (0xA0#8 :: [0x00#8, 0x01#8]) = .ok (.add 0x00#8 0x01#8, []) ∧
      decode OpcodeMap.ls8 (0xA0#8 :: [0x08#8, 0xFF#8, 0x01#8]) = .ok (.add 0x08#8 0xFF#8, [0x01#8]) := ⟨rfl, rfl⟩

/-- Each clause: a halted run, a failed run, a running state that runs an instruction, one whose fetch faults. -/
theorem witness_OnlyRunningTakesACycle :
    (State.reset.setRun .halted).run ≠ .running ∧
      (State.reset.setRun (.failed ⟨.illegalInstruction, 0x00#8, 0x00#8⟩)).run ≠ .running ∧
      (wrapAt 0x00#8 [0x01#8]).run = .running ∧ State.reset.run = .running := by decide

theorem witness_EndedRunStopsUnderItsName :
    (State.reset.setRun .halted).run = .halted ∧
      (State.reset.setRun (.failed ⟨.illegalInstruction, 0x00#8, 0x00#8⟩)).run =
        .failed ⟨.illegalInstruction, 0x00#8, 0x00#8⟩ := by decide

theorem witness_FailedIsFinal :
    ∃ s t record, s.run = .failed record ∧ Reaches s t :=
  ⟨State.reset.setRun (.failed ⟨.illegalInstruction, 0x00#8, 0x00#8⟩), _, _, rfl, .here⟩

/-- Under `wrap` at the top of memory, and under `fault` with the last operand byte at 255. -/
theorem witness_StepRunsTheDecodedInstruction :
    ((wrapAt 0xFF#8 [0x47#8, 0x00#8]).run = .running ∧
      decode OpcodeMap.ls8 (wrapAt 0xFF#8 [0x47#8, 0x00#8]).window = .ok (.prn 0x00#8, [0x00#8]) ∧
      (wrapAt 0xFF#8 [0x47#8, 0x00#8]).cfg.pcOverflow = .wrap) ∧
    ((faultAt 0xFD#8 [0x82#8, 0x00#8, 0x08#8]).run = .running ∧
      decode OpcodeMap.ls8 (faultAt 0xFD#8 [0x82#8, 0x00#8, 0x08#8]).window = .ok (.ldi 0x00#8 0x08#8, []) ∧
      (faultAt 0xFD#8 [0x82#8, 0x00#8, 0x08#8]).pc.toNat + 3 ≤ 256) :=
  ⟨⟨rfl, rfl, rfl⟩, rfl, rfl, by decide⟩

theorem witness_EveryCycleWritesTheOpcodeToIr : State.reset.run = .running := rfl

theorem witness_IllegalOpcodeFailsTheRun :
    State.reset.run = .running ∧ ∀ m, State.reset.cfg.opcodeMap.code m ≠ State.reset.readByte State.reset.pc :=
  ⟨rfl, fun m => by cases m <;> decide⟩

/-- An operand byte at 256, and both operand bytes past 255. -/
theorem witness_OperandFetchPastTheTopFaults :
    faultConfig.pcOverflow = .fault ∧
      ((faultAt 0xFE#8 [0x82#8, 0x02#8]).run = .running ∧
        (faultAt 0xFE#8 [0x82#8, 0x02#8]).readByte 0xFE#8 = OpcodeMap.ls8.code .ldi ∧
        256 < (0xFE#8 : Byte).toNat + Mnemonic.ldi.length) ∧
      ((faultAt 0xFF#8 [0x54#8]).run = .running ∧ (faultAt 0xFF#8 [0x54#8]).readByte 0xFF#8 = OpcodeMap.ls8.code .jmp ∧
        256 < (0xFF#8 : Byte).toNat + Mnemonic.jmp.length) := by decide

/-- A fault of the decode, and one of a handler. -/
theorem witness_FaultsArePrecise :
    (∃ t record, step State.reset = .next t ∧ t.run = .failed record) ∧
      (∃ t record, step (wrapAt 0x00#8 [0xA0#8, 0x00#8, 0x08#8]) = .next t ∧ t.run = .failed record) :=
  ⟨⟨_, _, rfl, rfl⟩, _, _, rfl, rfl⟩

theorem witness_OnlyHltHalts : ∃ t, step (wrapAt 0xFF#8 [0x01#8]) = .next t ∧ t.run = .halted := ⟨_, rfl, rfl⟩

theorem witness_OutputIsNeverRead : ∃ t, step (wrapAt 0x00#8 [0x47#8, 0x07#8]) = .next t := ⟨_, rfl⟩

theorem witness_OnlyPrintsAppendOutput :
    (∃ t, step (wrapAt 0x00#8 [0x01#8]) = .next t) ∧ (∃ t, step (wrapAt 0x00#8 [0x47#8, 0x07#8]) = .next t) ∧
      (∃ t, step (wrapAt 0x00#8 [0x48#8, 0x07#8]) = .next t) := ⟨⟨_, rfl⟩, ⟨_, rfl⟩, _, rfl⟩

theorem witness_ParametersNeverChange : ∃ t, step (faultAt 0x00#8 [0x01#8]) = .next t := ⟨_, rfl⟩

theorem witness_StepKeepsMemoryCanonical :
    (wrapAt 0x00#8 [0x45#8, 0x07#8]).mem.wf ∧ ∃ t, step (wrapAt 0x00#8 [0x45#8, 0x07#8]) = .next t :=
  ⟨by decide, _, rfl⟩

theorem witness_StepKeepsEndExplained :
    State.EndExplained (wrapAt 0x00#8 [0xA3#8, 0x00#8, 0x01#8]) ∧
      ∃ t, step (wrapAt 0x00#8 [0xA3#8, 0x00#8, 0x01#8]) = .next t := ⟨trivial, _, rfl⟩

theorem witness_StepKeepsFlagsExclusive :
    (wrapAt 0x00#8 [0xA7#8, 0x00#8, 0x07#8]).flags.AtMostOne ∧
      ∃ t, step (wrapAt 0x00#8 [0xA7#8, 0x00#8, 0x07#8]) = .next t :=
  ⟨⟨by decide, by decide, by decide⟩, _, rfl⟩

/-- Each clause: an instruction that is not CMP, a cycle that fails, a CMP, other flags with the same E and with another. -/
theorem witness_OnlyCompareTouchesFlags :
    (∃ t, exec (.add 0x00#8 0x01#8) State.reset = .next t ∧ (Instr.add 0x00#8 0x01#8).mnemonic ≠ .cmp) ∧
    (∃ t record, step State.reset = .next t ∧ t.run = .failed record) ∧
    State.reset.Continues 3 ∧
    (∃ t, exec (.jeq 0x00#8) State.reset = .next t ∧ (elg false true true).E = State.reset.flags.E) ∧
    (∃ t, exec (.ldi 0x00#8 0x00#8) State.reset = .next t ∧ (Instr.ldi 0x00#8 0x00#8).mnemonic ≠ .jeq ∧
      (Instr.ldi 0x00#8 0x00#8).mnemonic ≠ .jne) :=
  ⟨⟨_, rfl, by decide⟩, ⟨_, _, rfl, rfl⟩, .inl rfl, ⟨_, rfl, rfl⟩, _, rfl, by decide, by decide⟩

theorem witness_RegistersWrittenAreThoseOfTheTable :
    ∃ t, exec (.pop 0x01#8) State.reset = .next t ∧ mayWrite (.pop 0x01#8) 0 = false := ⟨_, rfl, by decide⟩

theorem witness_OnlyPushAndCallStore :
    (∃ t, exec (.push 0x01#8) State.reset = .next t) ∧
      (∃ t, exec (.pop 0x01#8) State.reset = .next t ∧ (Instr.pop 0x01#8).mnemonic ≠ .push ∧
        (Instr.pop 0x01#8).mnemonic ≠ .call) := ⟨⟨_, rfl⟩, _, rfl, by decide, by decide⟩

/-- `Continues n` for each `n` of the statements: by the mode, and by the address at its bound under `fault`. Meets the
hypotheses of LdiLoadsItsImmediate, PrintsAppendTheRegister, AddSubMulWrapModulo256, CmpSetsTheFlagPattern,
PushStoresBelowTheTop, PopLoadsTheTop, CallPushesTheReturnAddress, PushThenPopRestoresRegisters and
CompareThenJumpSeesNewFlags. -/
theorem witness_Continues :
    (wrapAt 0xFF#8 []).Continues 5 ∧ (faultAt 0xFC#8 []).Continues 3 ∧ (faultAt 0xFD#8 []).Continues 2 ∧
      (faultAt 0xFB#8 []).Continues 4 ∧ (faultAt 0xFA#8 []).Continues 5 :=
  ⟨.inl rfl, .inr (by decide), .inr (by decide), .inr (by decide), .inr (by decide)⟩

theorem witness_DivWritesTheQuotient : (faultAt 0xFC#8 []).Continues 3 ∧ (faultAt 0xFC#8 []).getReg 7 ≠ 0#8 :=
  ⟨.inr (by decide), by decide⟩

theorem witness_DivByZeroFails : (faultAt 0xFF#8 []).getReg 1 = 0#8 := by decide

/-- Each clause of ConditionalJumpsReadE, and both operands of CompareThenJumpSeesNewFlags equal and not. -/
theorem witness_ConditionalJumpsReadE :
    (State.reset.setFlags (elg true false false)).flags.E = true ∧ State.reset.flags.E = false ∧
      State.reset.Continues 2 ∧ (State.reset.setFlags (elg true false false)).Continues 2 ∧
      State.reset.getReg 0 = State.reset.getReg 1 ∧ State.reset.getReg 0 ≠ State.reset.getReg 7 :=
  ⟨rfl, rfl, .inl rfl, .inl rfl, by decide, by decide⟩

theorem witness_CallThenRetReturns :
    State.reset.Continues 2 ∧ ∃ t, exec (.call 0x01#8) State.reset = .next t ∧
      ∃ u : State, u.sp = t.sp ∧ u.readByte t.sp = t.readByte t.sp := ⟨.inl rfl, _, rfl, _, rfl, rfl⟩

/-- A first operand, a second operand, and a jump that is taken. -/
theorem witness_RegisterOperandAboveSevenFaults :
    (usedOperands (.ldi 0x08#8 0x00#8) State.reset).find? (fun c => decide (7 < c.toNat)) = some 0x08#8 ∧
      (usedOperands (.div 0x07#8 0xFF#8) State.reset).find? (fun c => decide (7 < c.toNat)) = some 0xFF#8 ∧
      (usedOperands (.jne 0x09#8) State.reset).find? (fun c => decide (7 < c.toNat)) = some 0x09#8 := by decide

/-- An instruction of length 3 and a jump that is not taken, each with its successor at 256. -/
theorem witness_SuccessorPastTheTopFaults :
    (faultConfig.pcOverflow = .fault ∧ successor (.ldi 0x07#8 0x00#8) (faultAt 0xFD#8 []) = some 3 ∧
      255 < (faultAt 0xFD#8 []).pc.toNat + 3 ∧
      (∀ b ∈ usedOperands (.ldi 0x07#8 0x00#8) (faultAt 0xFD#8 []), b.toNat ≤ 7) ∧
      ¬ DividesByZero (.ldi 0x07#8 0x00#8) (faultAt 0xFD#8 [])) ∧
    (successor (.jeq 0x09#8) (faultAt 0xFE#8 []) = some 2 ∧ 255 < (faultAt 0xFE#8 []).pc.toNat + 2 ∧
      (∀ b ∈ usedOperands (.jeq 0x09#8) (faultAt 0xFE#8 []), b.toNat ≤ 7) ∧
      ¬ DividesByZero (.jeq 0x09#8) (faultAt 0xFE#8 [])) :=
  ⟨⟨rfl, rfl, by decide, by decide, fun ⟨_, _, h, _⟩ => Instr.noConfusion h⟩,
    rfl, by decide, by decide, fun ⟨_, _, h, _⟩ => Instr.noConfusion h⟩

theorem witness_WellFormedInstructionsDoNotFail :
    State.reset.run = .running ∧ State.reset.cfg.pcOverflow = .wrap ∧ (Instr.push 0x07#8).WellFormed ∧
      ¬ DividesByZero (.push 0x07#8) State.reset ∧ ∃ t, exec (.push 0x07#8) State.reset = .next t :=
  ⟨rfl, rfl, by decide, fun ⟨_, _, h, _⟩ => Instr.noConfusion h, _, rfl⟩

theorem witness_CanonicalMemoriesAreEqualData :
    Memory.wf [(0, 1#8), (255, 2#8)] ∧ ∀ a, a < 256 → Memory.read [(0, 1#8), (255, 2#8)] a =
      Memory.read [(0, 1#8), (255, 2#8)] a := ⟨by decide, fun _ _ => rfl⟩

theorem witness_FetchSeesTheLatestStore : State.reset.run = .running := rfl

/-- An image that fills the memory, and one byte more. -/
theorem witness_LoadPlacesTheImage :
    (List.replicate 256 0x01#8).length ≤ 256 ∧ 256 < (List.replicate 257 0x01#8).length := by
  rw [List.length_replicate, List.length_replicate]
  decide

theorem witness_ExitStatusTellsTheEnd :
    (State.reset.setRun .halted).run = .halted ∧ State.reset.run = .running ∧
      (State.reset.setRun (.failed ⟨.divisionByZero 1, 0x00#8, 0xA3#8⟩)).run =
        .failed ⟨.divisionByZero 1, 0x00#8, 0xA3#8⟩ := by decide

/-- Each move a started engine admits. -/
theorem witness_HostOnlyObservesARun :
    (∃ a u, hostMove .output (.started State.reset) = some (a, u)) ∧
      (∃ a u, hostMove .finish (.started (State.reset.setRun .halted)) = some (a, u)) ∧
      (∃ a u, hostMove .abort (.started State.reset) = some (a, u)) := ⟨⟨_, _, rfl⟩, ⟨_, _, rfl⟩, _, _, rfl⟩

/-- Each clause: two mnemonics that share a byte, and an injective map. -/
theorem witness_NoEngineTakesASharedOpcode :
    (Mnemonic.ret ≠ .hlt ∧ { OpcodeMap.ls8 with hlt := 0x11#8 }.code .ret = { OpcodeMap.ls8 with hlt := 0x11#8 }.code .hlt) ∧
      ∀ m k, OpcodeMap.ls8.code m = OpcodeMap.ls8.code k → m = k :=
  ⟨by decide, fun m k h => by cases m <;> cases k <;> first | rfl | (revert h; decide)⟩

end Sys2Proof.Tests
end

section
/-! SUPPORT. The parameters of the engine (00_scope.md R6): no handler and no cycle writes `cfg`. -/

namespace Sys2Proof.Machine

@[simp] theorem State.compare_cfg (s : State) (p q : Byte) : (s.compare p q).cfg = s.cfg := rfl

/-- No instruction rule writes the parameters: each commits a chain of register, memory, flag, `pc`, output and run
updates. -/
theorem Commits.cfg_eq {i : Instr} {s t : State} (h : Commits i s t) : t.cfg = s.cfg := by
  cases i <;> simp only [Commits] at h
  case ret | hlt => subst h; simp
  case jmp => obtain ⟨_, _, rfl⟩ := h; simp
  case jeq | jne => obtain ⟨_, _, _, rfl⟩ | ⟨_, _, _, rfl⟩ := h <;> simp
  case div => obtain ⟨_, _, _, _, _, _, _, rfl⟩ := h; simp
  case add | sub | mul | cmp => obtain ⟨_, _, _, _, _, _, rfl⟩ := h; simp
  case ldi | prn | pra | push | pop | call => obtain ⟨_, _, _, _, rfl⟩ := h; simp

/-- A handler keeps the parameters, whether it commits or raises. -/
theorem exec_cfg_eq {i : Instr} {s t : State} (h : exec i s = .next t) : t.cfg = s.cfg := by
  rcases exec_eq_next h with hc | ⟨c, _, rfl⟩
  · exact hc.cfg_eq
  · exact State.raise_cfg s c

/-- Settles O19: a cycle is a fault of the fetch or one handler after the fetch, and each of these keeps `cfg`. -/
theorem parametersNeverChange : Obligations.ParametersNeverChange := by
  intro s t h
  obtain ⟨_, ⟨c, _, rfl⟩ | ⟨_, _, hexec⟩⟩ := step_eq_next h
  · simp
  · exact (exec_cfg_eq hexec).trans s.fetchOpcode_cfg

end Sys2Proof.Machine
end

section
/-! SUPPORT. What a fetched byte decides: a running engine answers the handler of the fetched instruction or the fault
of the fetch, and the old `ir` plays no part (10_state.md R28, R29; 40_engine.md R80 to R84). -/

namespace Sys2Proof.Machine

/-- From Running, where the fetch answers an instruction, the cycle is its handler (R84). -/
theorem step_of_fetchInstr_ok {s : State} {i : Instr} (hr : s.run = .running)
    (hi : s.fetchOpcode.fetchInstr = .ok i) : step s = exec i s.fetchOpcode := by
  simp only [step, hr, hi]

/-- From Running, where the fetch raises, the cycle takes that fault (R82, R85). -/
theorem step_of_fetchInstr_error {s : State} {c : FaultCause} (hr : s.run = .running)
    (hc : s.fetchOpcode.fetchInstr = .error c) : step s = .next (s.fetchOpcode.raise c) := by
  simp only [step, hr, hc]

/-- The fetch overwrites `ir`, whatever it held (R81). -/
@[simp] theorem State.fetchOpcode_setIr (s : State) (b : Byte) : (s.setIr b).fetchOpcode = s.fetchOpcode := rfl

/-- Settles O7: an ended run has no next state by `step_eq_next`; from Running the fetch answers an instruction, whose
handler always answers a next state, or a fault, which is taken. -/
theorem onlyRunningTakesACycle : Obligations.OnlyRunningTakesACycle := by
  refine ⟨rfl, fun s t hr h => hr (step_eq_next h).1, fun s hr => ?_⟩
  cases hf : s.fetchOpcode.fetchInstr with
  | ok i =>
    obtain ⟨t, ht⟩ := exec_total i s.fetchOpcode
    exact .inl ⟨i, t, rfl, ht, (step_of_fetchInstr_ok hr hf).trans ht⟩
  | error c =>
    exact .inr ⟨c, _, rfl, State.raise_faultTaken _ c, step_of_fetchInstr_error hr hf⟩

/-- Settles O16: a step reads `ir` only after its fetch has overwritten it. -/
theorem stepForgetsTheOldIr : Obligations.StepForgetsTheOldIr := by
  intro s b
  simp only [step, State.setIr_run, State.fetchOpcode_setIr]

end Sys2Proof.Machine
end

section
/-! SUPPORT. What the instruction rules do to the flags, the run state and the output (10_state.md R26, R27, R29, R30):
CMP alone writes flags, HLT alone ends the run, PRN and PRA alone print. -/

namespace Sys2Proof.Machine

/-! ### The comparison -/

/-- The flag pattern, flag by flag (R105). -/
theorem compareFlags_eq (p q : Byte) :
    compareFlags p q =
      { E := decide (p = q), L := decide (p.toNat < q.toNat), G := decide (q.toNat < p.toNat) } := by
  unfold compareFlags
  split
  · rename_i he
    simp [BitVec.eq_of_toNat_eq he]
  · rename_i he
    have hne : p ≠ q := fun h => he (congrArg _ h)
    split
    · rename_i hl
      simp [hne, hl, Nat.le_of_lt hl]
    · rename_i hl
      have hg : q.toNat < p.toNat := by omega
      simp [hne, hg, Nat.le_of_lt hg]

/-- Every comparison sets at most one flag (R27). -/
theorem compareFlags_atMostOne (p q : Byte) : (compareFlags p q).AtMostOne := by
  unfold compareFlags
  split
  · simp [Flags.AtMostOne]
  · split <;> simp [Flags.AtMostOne]

/-! ### What may change, and by which instruction -/

/-- The flags are kept, or CMP wrote a comparison to them (R26). -/
def FlagsEffect (i : Instr) (s t : State) : Prop :=
  t.flags = s.flags ∨ i.mnemonic = .cmp ∧ ∃ p q, t.flags = compareFlags p q

/-- The run state is kept, or HLT ended the run (R88). -/
def RunEffect (i : Instr) (s t : State) : Prop :=
  t.run = s.run ∨ i.mnemonic = .hlt ∧ t.run = .halted

/-- The output is kept, or PRN or PRA appended one event of its kind (R91, R92). -/
def OutEffect (i : Instr) (s t : State) : Prop :=
  t.out = s.out ∨ (∃ v, t.out = s.out ++ [⟨.numeric, v⟩] ∧ i.mnemonic = .prn) ∨
    ∃ v, t.out = s.out ++ [⟨.character, v⟩] ∧ i.mnemonic = .pra

/-- The effects of a rule on flags, run state and output: each of the three has its own writers. -/
theorem Commits.effects {i : Instr} {s t : State} (h : Commits i s t) :
    FlagsEffect i s t ∧ RunEffect i s t ∧ OutEffect i s t := by
  cases i <;> simp only [Commits] at h
  case cmp => obtain ⟨_, _, _, _, _, _, rfl⟩ := h; exact ⟨.inr ⟨rfl, _, _, rfl⟩, .inl rfl, .inl rfl⟩
  case prn => obtain ⟨_, _, _, _, rfl⟩ := h; exact ⟨.inl rfl, .inl rfl, .inr (.inl ⟨_, rfl, rfl⟩)⟩
  case pra => obtain ⟨_, _, _, _, rfl⟩ := h; exact ⟨.inl rfl, .inl rfl, .inr (.inr ⟨_, rfl, rfl⟩)⟩
  case hlt => subst h; exact ⟨.inl rfl, .inr ⟨rfl, rfl⟩, .inl rfl⟩
  case ret => subst h; exact ⟨.inl rfl, .inl rfl, .inl rfl⟩
  case jmp => obtain ⟨_, _, rfl⟩ := h; exact ⟨.inl rfl, .inl rfl, .inl rfl⟩
  case jeq | jne => obtain ⟨_, _, _, rfl⟩ | ⟨_, _, _, rfl⟩ := h <;> exact ⟨.inl rfl, .inl rfl, .inl rfl⟩
  case div => obtain ⟨_, _, _, _, _, _, _, rfl⟩ := h; exact ⟨.inl rfl, .inl rfl, .inl rfl⟩
  case add | sub | mul => obtain ⟨_, _, _, _, _, _, rfl⟩ := h; exact ⟨.inl rfl, .inl rfl, .inl rfl⟩
  case ldi | push | pop | call => obtain ⟨_, _, _, _, rfl⟩ := h; exact ⟨.inl rfl, .inl rfl, .inl rfl⟩

theorem exec_flagsEffect {i : Instr} {s t : State} (h : exec i s = .next t) : FlagsEffect i s t := by
  rcases exec_eq_next h with hc | ⟨c, _, rfl⟩
  · obtain ⟨hflags, _, _⟩ := hc.effects
    exact hflags
  · exact .inl rfl

theorem exec_outEffect {i : Instr} {s t : State} (h : exec i s = .next t) : OutEffect i s t := by
  rcases exec_eq_next h with hc | ⟨c, _, rfl⟩
  · obtain ⟨_, _, hout⟩ := hc.effects
    exact hout
  · exact .inl rfl

/-- A handler that fails a running engine has raised: no rule commits a failed run (R85). -/
theorem exec_failed {i : Instr} {s t : State} {record : FaultRecord} (h : exec i s = .next t)
    (hr : s.run = .running) (hf : t.run = .failed record) : ∃ c, MayRaise i s c ∧ t = s.raise c := by
  rcases exec_eq_next h with hc | hraise
  · obtain ⟨_, hkept | ⟨_, hhalted⟩, _⟩ := hc.effects
    · simp [hkept, hr] at hf
    · simp [hhalted] at hf
  · exact hraise

/-- A cycle that fails the run has raised, in the fetch or in the handler (R85). -/
theorem step_failed {s t : State} {record : FaultRecord} (h : step s = .next t) (hf : t.run = .failed record) :
    ∃ c, t = s.fetchOpcode.raise c := by
  obtain ⟨hr, ⟨c, _, rfl⟩ | ⟨_, _, hexec⟩⟩ := step_eq_next h
  · exact ⟨c, rfl⟩
  · obtain ⟨c, _, rfl⟩ := exec_failed hexec hr hf
    exact ⟨c, rfl⟩

/-! ### The statements about flags and output of one cycle -/

/-- Settles O18: a fault keeps the output, a handler has `OutEffect`, and the fetched byte is its instruction's opcode. -/
theorem onlyPrintsAppendOutput : Obligations.OnlyPrintsAppendOutput := by
  intro s t h
  obtain ⟨_, ⟨c, _, rfl⟩ | ⟨i, hi, hexec⟩⟩ := step_eq_next h
  · exact .inl rfl
  · have hop : s.readByte s.pc = s.cfg.opcodeMap.code i.mnemonic := State.fetchInstr_eq_ok hi
    obtain hout | ⟨v, hout, hm⟩ | ⟨v, hout, hm⟩ := exec_outEffect hexec
    · exact .inl hout
    · exact .inr (.inl ⟨v, hout, by rw [hop, hm, OpcodeMap.code]⟩)
    · exact .inr (.inr ⟨v, hout, by rw [hop, hm, OpcodeMap.code]⟩)

/-- Settles O22: a cycle keeps the flags or writes a comparison, and a comparison sets at most one. -/
theorem stepKeepsFlagsExclusive : Obligations.StepKeepsFlagsExclusive := by
  intro s t hs h
  obtain ⟨_, ⟨c, _, rfl⟩ | ⟨i, _, hexec⟩⟩ := step_eq_next h
  · exact hs
  · obtain hk | ⟨_, p, q, hc⟩ := exec_flagsEffect hexec
    · rwa [hk]
    · rw [hc]
      exact compareFlags_atMostOne p q

end Sys2Proof.Machine
end

section
/-! SUPPORT. What a handler reads of the flags and the output (10_state.md R26, R30): run from a state with other flags
and another output, every handler ends the same way, with the same new events and the same newly written flags. The two
runs are compared check by check: both handlers make the same checks, so they raise the same fault or both complete. -/

namespace Sys2Proof.Machine

/-- The state with other flags and another output. -/
def State.withFlagsOut (s : State) (f : Flags) (out : List OutEvent) : State := { s with flags := f, out := out }

/-- `u` is what `t`, a state reached from `s`, becomes when the start has flags `f` and output `out` instead: it has the
same events appended, and its flags were written alike in both runs or kept in both. -/
def Mirrors (s : State) (f : Flags) (out : List OutEvent) (t u : State) : Prop :=
  ∃ g events, t.out = s.out ++ events ∧ (g = t.flags ∨ g = f ∧ t.flags = s.flags) ∧
    u = t.withFlagsOut g (out ++ events)

/-- Two handlers end alike: with related states, or with the same fault. -/
inductive EndAlike (R : State → State → Prop) : Except FaultCause State → Except FaultCause State → Prop where
  | ok {t u : State} : R t u → EndAlike R (.ok t) (.ok u)
  | error (c : FaultCause) : EndAlike R (.error c) (.error c)

/-- After the same check, handlers that go on alike end alike. -/
theorem EndAlike.bind {R : State → State → Prop} {α : Type} (x : Except FaultCause α)
    {k k' : α → Except FaultCause State} (h : ∀ a, EndAlike R (k a) (k' a)) : EndAlike R (x >>= k) (x >>= k') := by
  cases x with
  | ok a => exact h a
  | error c => exact .error c

section
variable {s t : State} {f : Flags} {out : List OutEvent}

/-- A rule that writes neither flags nor output is mirrored by itself. -/
theorem Mirrors.kept (ho : t.out = s.out) (hf : t.flags = s.flags) : Mirrors s f out t (t.withFlagsOut f out) :=
  ⟨f, [], by simp [ho], .inr ⟨rfl, hf⟩, by simp⟩

/-- A rule that appends an event and keeps the flags appends the same event to any output. -/
theorem Mirrors.appended {e : OutEvent} (ho : t.out = s.out ++ [e]) (hf : t.flags = s.flags) :
    Mirrors s f out t (t.withFlagsOut f (out ++ [e])) :=
  ⟨f, [e], ho, .inr ⟨rfl, hf⟩, rfl⟩

/-- A rule that writes the flags and keeps the output writes the same flags over any others. -/
theorem Mirrors.flagsWritten (ho : t.out = s.out) : Mirrors s f out t (t.withFlagsOut t.flags out) :=
  ⟨t.flags, [], by simp [ho], .inl rfl, by simp⟩

/-- Handlers that end alike give mirrored outcomes: a fault keeps flags and output. -/
theorem EndAlike.complete {h h' : Except FaultCause State} (ht : s.complete h = .next t)
    (ha : EndAlike (Mirrors s f out) h h') :
    ∃ u, (s.withFlagsOut f out).complete h' = .next u ∧ Mirrors s f out t u := by
  cases ha with
  | ok hm => cases ht; exact ⟨_, rfl, hm⟩
  | error c => cases ht; exact ⟨_, rfl, .kept rfl rfl⟩

/-- ADD, SUB and MUL read registers and `pc` only (R100). -/
theorem State.arith_mirrors {op : Byte → Byte → Byte} {rA rB : Byte} (h : s.arith op rA rB = .next t) :
    ∃ u, (s.withFlagsOut f out).arith op rA rB = .next u ∧ Mirrors s f out t u :=
  EndAlike.complete h (.bind _ fun _ => .bind _ fun _ => .bind _ fun _ => .ok (.kept rfl rfl))

/-- PRN and PRA append their event to any output (R91, R92). -/
theorem State.print_mirrors {kind : OutKind} {r : Byte} (h : s.print kind r = .next t) :
    ∃ u, (s.withFlagsOut f out).print kind r = .next u ∧ Mirrors s f out t u :=
  EndAlike.complete h (.bind _ fun _ => .bind _ fun _ => .ok (.appended rfl rfl))

/-- A jump that is taken alike goes on alike (R120 to R122). -/
theorem State.branch_mirrors {taken : Bool} {r : Byte} (h : s.branch taken r = .next t) :
    ∃ u, (s.withFlagsOut f out).branch taken r = .next u ∧ Mirrors s f out t u := by
  cases taken with
  | true => exact EndAlike.complete h (.bind _ fun _ => .ok (.kept rfl rfl))
  | false => exact EndAlike.complete h (.bind _ fun _ => .ok (.kept rfl rfl))

/-- Every handler runs alike from other flags and another output, if `E` is the same or is not read: only JEQ and JNE
read it. -/
theorem exec_mirrors {i : Instr} (h : exec i s = .next t)
    (hf : f.E = s.flags.E ∨ i.mnemonic ≠ .jeq ∧ i.mnemonic ≠ .jne) :
    ∃ u, exec i (s.withFlagsOut f out) = .next u ∧ Mirrors s f out t u := by
  cases i with
  | prn r | pra r => exact State.print_mirrors h
  | add rA rB | sub rA rB | mul rA rB => exact State.arith_mirrors h
  | jmp r => exact State.branch_mirrors h
  | jeq r =>
    have hE : f.E = s.flags.E := hf.resolve_right fun hn => hn.1 rfl
    have hb := State.branch_mirrors (f := f) (out := out) h
    rwa [← hE] at hb
  | jne r =>
    have hE : f.E = s.flags.E := hf.resolve_right fun hn => hn.2 rfl
    have hb := State.branch_mirrors (f := f) (out := out) h
    rwa [← hE] at hb
  | ldi r v | push r | pop r | call r =>
    exact EndAlike.complete h (.bind _ fun _ => .bind _ fun _ => .ok (.kept rfl rfl))
  | div rA rB =>
    exact EndAlike.complete h
      (.bind _ fun _ => .bind _ fun _ => .bind _ fun _ => .bind _ fun _ => .ok (.kept rfl rfl))
  | cmp rA rB =>
    exact EndAlike.complete h (.bind _ fun _ => .bind _ fun _ => .bind _ fun _ => .ok (.flagsWritten rfl))
  | ret | hlt => cases h; exact ⟨_, rfl, .kept rfl rfl⟩

end

/-- The fetch and decode of a cycle do not see the output (R81 to R83). -/
theorem State.fetchInstr_withOut (s : State) (out : List OutEvent) :
    ({ s with out := out } : State).fetchOpcode.fetchInstr = s.fetchOpcode.fetchInstr := rfl

/-- Settles O17: the fetch does not see the output, a fault keeps it, and a handler mirrors another output; with the
flags the same, nothing else differs. -/
theorem outputIsNeverRead : Obligations.OutputIsNeverRead := by
  intro s t out h
  obtain ⟨hr, ⟨c, hc, rfl⟩ | ⟨i, hi, hexec⟩⟩ := step_eq_next h
  · refine ⟨[], by simp, ?_⟩
    rw [List.append_nil]
    exact step_of_fetchInstr_error (s := { s with out := out }) hr ((s.fetchInstr_withOut out).trans hc)
  · obtain ⟨u, hu, g, events, hout, hg, rfl⟩ := exec_mirrors (f := s.flags) (out := out) hexec (.inl rfl)
    have hflags : g = t.flags := hg.elim id fun ⟨hgs, hts⟩ => hgs.trans hts.symm
    refine ⟨events, hout, ?_⟩
    rw [hflags] at hu
    exact (step_of_fetchInstr_ok (s := { s with out := out }) hr ((s.fetchInstr_withOut out).trans hi)).trans hu

/-- Settles O24: `FlagsEffect` for the writers, `step_failed` for the faults, `compareFlags_eq` for the pattern of CMP,
and `exec_mirrors` with the output unchanged for the readers. -/
theorem onlyCompareTouchesFlags : Obligations.OnlyCompareTouchesFlags := by
  refine ⟨fun i s t hi h => ?_, fun s t record h hf => ?_, fun s a b hcont => ?_, fun i s t f h hf => ?_⟩
  · exact (exec_flagsEffect h).resolve_right fun hc => hi hc.1
  · obtain ⟨c, rfl⟩ := step_failed h hf
    rfl
  · exact ⟨_, exec_of_commits ⟨a, rfl, b, rfl, _, State.nextPC_of_continues hcont, rfl⟩, compareFlags_eq _ _⟩
  · obtain ⟨u, hu, g, events, hout, _, rfl⟩ := exec_mirrors (out := s.out) h hf
    refine ⟨_, hu, ?_⟩
    rw [← hout]
    rfl

end Sys2Proof.Machine
end

section
/-! SUPPORT. The registers an instruction writes (10_state.md R23): each rule writes those of its row in the table. -/

namespace Sys2Proof.Machine

/-- An operand byte that does not name `q` leaves `q` to another register. -/
theorem ne_of_regByte_beq_eq_false {d q : Fin 8} (h : (regByte d == regByte q) = false) : q ≠ d := by
  rintro rfl
  simp at h

/-- A rule keeps every register outside its row of the table (R23). -/
theorem Commits.getReg_eq {i : Instr} {s t : State} {q : Fin 8} (h : Commits i s t) (hq : mayWrite i q = false) :
    t.getReg q = s.getReg q := by
  cases i <;> simp only [Commits] at h <;> simp only [mayWrite] at hq
  case ldi =>
    obtain ⟨d, rfl, _, _, rfl⟩ := h
    simp [ne_of_regByte_beq_eq_false hq]
  case add | sub | mul =>
    obtain ⟨a, rfl, _, _, _, _, rfl⟩ := h
    simp [ne_of_regByte_beq_eq_false hq]
  case div =>
    obtain ⟨a, rfl, _, _, _, _, _, rfl⟩ := h
    simp [ne_of_regByte_beq_eq_false hq]
  case cmp => obtain ⟨_, _, _, _, _, _, rfl⟩ := h; rfl
  case prn | pra => obtain ⟨_, _, _, _, rfl⟩ := h; rfl
  case push | call =>
    obtain ⟨_, _, _, _, rfl⟩ := h
    have h7 : q ≠ 7 := by simpa using hq
    simp [State.getReg_push, h7]
  case pop =>
    obtain ⟨d, rfl, _, _, rfl⟩ := h
    obtain ⟨hd, h7⟩ := Bool.or_eq_false_iff.mp hq
    have h7 : q ≠ 7 := by simpa using h7
    simp [State.getReg_incSp, h7, ne_of_regByte_beq_eq_false hd]
  case ret =>
    subst h
    have h7 : q ≠ 7 := by simpa using hq
    simp [State.getReg_incSp, h7]
  case jmp => obtain ⟨_, _, rfl⟩ := h; rfl
  case jeq | jne => obtain ⟨_, _, _, rfl⟩ | ⟨_, _, _, rfl⟩ := h <;> rfl
  case hlt => subst h; rfl

/-- Settles O25: a handler commits its rule, which keeps the registers outside the table's row, or takes a fault, which
keeps all of them. -/
theorem registersWrittenAreThoseOfTheTable : Obligations.RegistersWrittenAreThoseOfTheTable := by
  intro i s t h q hq
  rcases exec_eq_next h with hc | ⟨c, _, rfl⟩
  · exact hc.getReg_eq hq
  · exact State.getReg_raise s q c

end Sys2Proof.Machine
end

section
/-! SUPPORT. The newly constructed engine (10_state.md R35, 70_reset_and_hazards.md R180) and the host during a run
(10_state.md R36, 60_exceptions.md R158). -/

namespace Sys2Proof.Machine

/-- A new engine meets the invariant under any parameters: no cell is listed, no flag set, and the run has not ended. -/
theorem State.construct_inv (cfg : Config) : (State.construct cfg).Inv :=
  ⟨State.construct_wf cfg, by simp [State.construct, flagInit, Flags.AtMostOne], trivial⟩

/-- Settles O23: the reset engine is the one constructed with the default parameters. -/
theorem constructionMeetsInvariant : Obligations.ConstructionMeetsInvariant :=
  ⟨State.construct_inv defaultConfig, State.construct_inv⟩

/-- Settles O49: each field of the reset state holds its constant, and memory lists no cell. -/
theorem resetStateIsAsSpecified : Obligations.ResetStateIsAsSpecified := by
  refine ⟨?registers, rfl, rfl, rfl, fun _ => rfl, rfl, rfl⟩
  case registers => decide

/-- Settles O52, move by move: construct, load and run are not offered once the session has started. -/
theorem hostOnlyObservesARun : Obligations.HostOnlyObservesARun := by
  intro move s answer after h
  cases move with
  | construct cfg | load image | run => cases h
  | output => cases h; exact .inl ⟨rfl, .inl rfl⟩
  | finish =>
    obtain ⟨report, hreport, ha⟩ := Option.map_eq_some_iff.mp h
    cases ha
    exact .inl ⟨rfl, .inr ⟨report, hreport, rfl⟩⟩
  | abort => cases h; exact .inr ⟨rfl, rfl, rfl⟩

end Sys2Proof.Machine
end

section
/-! SUPPORT. Canonical memories as data (20_memory.md R40): their cells are what reads give, and the addresses of the cells
put them in order. -/

namespace Sys2Proof.Machine

namespace Memory

/-- Where addresses rise strictly, no cell hides another: each is what a read of its address gives. -/
theorem read_of_mem {m : Memory} (h : m.Pairwise (fun c d => c.1 < d.1)) {c : Host.Cell} (hc : c ∈ m) :
    Memory.read m c.1 = c.2 := by
  induction m with
  | nil => cases hc
  | cons d rest ih =>
    obtain ⟨hd, hrest⟩ := List.pairwise_cons.mp h
    rcases List.mem_cons.mp hc with rfl | hc
    · simp [Memory.read]
    · simp [Memory.read, Nat.ne_of_lt (hd c hc), ih hrest hc]

/-- A byte that does not read as blank is listed, in any memory. -/
theorem mem_of_read_ne_blank {m : Memory} {a : Nat} (h : Memory.read m a ≠ blankByte) : (a, Memory.read m a) ∈ m := by
  induction m with
  | nil => exact absurd rfl h
  | cons c rest ih =>
    by_cases hc : c.1 = a
    · simp [Memory.read, ← hc]
    · simp only [Memory.read, if_neg hc] at h ⊢
      exact List.mem_cons_of_mem _ (ih h)

/-- The cells of a canonical memory are listed in every memory that reads alike. -/
theorem subset_of_read_eq {m n : Memory} (hm : Memory.wf m)
    (h : ∀ a, a < memSize → Memory.read m a = Memory.read n a) : m ⊆ n := by
  obtain ⟨hp, hcells⟩ := hm
  intro c hc
  obtain ⟨haddr, hblank⟩ := hcells c hc
  have hread : Memory.read n c.1 = c.2 := (h c.1 haddr).symm.trans (read_of_mem hp hc)
  have hlisted := mem_of_read_ne_blank (hread ▸ hblank)
  rwa [hread] at hlisted

end Memory

/-- Settles O47: each list holds the cells of the other, and rising addresses leave one order for them. -/
theorem canonicalMemoriesAreEqualData : Obligations.CanonicalMemoriesAreEqualData := by
  intro m n hm hn h
  have : Std.Antisymm (fun c d : Host.Cell => c.1 < d.1) := ⟨fun _ _ hcd hdc => absurd hdc (Nat.lt_asymm hcd)⟩
  have : Std.Irrefl (fun c d : Host.Cell => c.1 < d.1) := ⟨fun _ => Nat.lt_irrefl _⟩
  have ⟨hmRising, _⟩ := hm
  have ⟨hnRising, _⟩ := hn
  exact List.Subset.antisymm_of_pairwise hmRising hnRising (Memory.subset_of_read_eq hm h)
    (Memory.subset_of_read_eq hn fun a ha => (h a ha).symm)

end Sys2Proof.Machine
end

section
/-! SUPPORT. The stores of the instruction rules (20_memory.md R42): PUSH and CALL store one byte at the decremented SP, and
no rule writes `ir`, which is the fetch's alone (10_state.md R28). -/

namespace Sys2Proof.Machine

/-- Equal memories read alike. -/
theorem State.readByte_congr {s t : State} (h : t.mem = s.mem) (a : Byte) : t.readByte a = s.readByte a := by
  rw [State.readByte, h, State.readByte]

/-- Memory is kept, or PUSH or CALL stored one byte at the decremented SP (R42). -/
def MemEffect (i : Instr) (s t : State) : Prop :=
  t.mem = s.mem ∨ (i.mnemonic = .push ∨ i.mnemonic = .call) ∧ ∃ v, t.mem = (s.writeByte s.pushAddr v).mem

/-- What a rule does to memory, and that it keeps `ir`. -/
theorem Commits.memEffect_and_ir {i : Instr} {s t : State} (h : Commits i s t) : MemEffect i s t ∧ t.ir = s.ir := by
  cases i <;> simp only [Commits] at h
  case push => obtain ⟨_, _, _, _, rfl⟩ := h; exact ⟨.inr ⟨.inl rfl, _, rfl⟩, rfl⟩
  case call => obtain ⟨_, _, _, _, rfl⟩ := h; exact ⟨.inr ⟨.inr rfl, _, rfl⟩, rfl⟩
  case ret | hlt => subst h; exact ⟨.inl rfl, rfl⟩
  case jmp => obtain ⟨_, _, rfl⟩ := h; exact ⟨.inl rfl, rfl⟩
  case jeq | jne => obtain ⟨_, _, _, rfl⟩ | ⟨_, _, _, rfl⟩ := h <;> exact ⟨.inl rfl, rfl⟩
  case div => obtain ⟨_, _, _, _, _, _, _, rfl⟩ := h; exact ⟨.inl rfl, rfl⟩
  case add | sub | mul | cmp => obtain ⟨_, _, _, _, _, _, rfl⟩ := h; exact ⟨.inl rfl, rfl⟩
  case ldi | prn | pra | pop => obtain ⟨_, _, _, _, rfl⟩ := h; exact ⟨.inl rfl, rfl⟩

theorem exec_memEffect {i : Instr} {s t : State} (h : exec i s = .next t) : MemEffect i s t := by
  rcases exec_eq_next h with hc | ⟨c, _, rfl⟩
  · obtain ⟨hmem, _⟩ := hc.memEffect_and_ir
    exact hmem
  · exact .inl (State.raise_mem s c)

theorem exec_ir_eq {i : Instr} {s t : State} (h : exec i s = .next t) : t.ir = s.ir := by
  rcases exec_eq_next h with hc | ⟨c, _, rfl⟩
  · obtain ⟨_, hir⟩ := hc.memEffect_and_ir
    exact hir
  · exact State.raise_ir s c

/-- Every cycle leaves the byte at `pc` in `ir`, faulting or not (R81). -/
theorem step_ir_eq {s t : State} (h : step s = .next t) : t.ir = s.readByte s.pc := by
  obtain ⟨_, ⟨c, _, rfl⟩ | ⟨_, _, hexec⟩⟩ := step_eq_next h
  · exact State.raise_ir _ c
  · exact exec_ir_eq hexec

/-- A running engine has a next state (R29). -/
theorem exists_step_of_running {s : State} (hr : s.run = .running) : ∃ t, step s = .next t := by
  obtain ⟨_, _, hcycle⟩ := onlyRunningTakesACycle
  obtain ⟨_, t, _, _, ht⟩ | ⟨_, t, _, _, ht⟩ := hcycle s hr <;> exact ⟨t, ht⟩

/-- A memory effect stores only at byte addresses, so it keeps the canonical form (R40, R45). -/
theorem MemEffect.wf {i : Instr} {s t : State} (h : MemEffect i s t) (hs : s.mem.wf) : t.mem.wf := by
  obtain hkept | ⟨_, v, hstored⟩ := h
  · rwa [hkept]
  · rw [hstored]
    exact State.writeByte_wf hs _ v

/-- Settles O20: a fault of the fetch keeps memory, and a handler has `MemEffect`, which keeps the form. -/
theorem stepKeepsMemoryCanonical : Obligations.StepKeepsMemoryCanonical := by
  intro s t hs h
  obtain ⟨_, ⟨c, _, rfl⟩ | ⟨i, _, hexec⟩⟩ := step_eq_next h
  · exact hs
  · exact (exec_memEffect hexec).wf (s := s.fetchOpcode) hs

/-- Settles O26: `MemEffect` says which instructions store, and a store changes the read of its own address alone. -/
theorem onlyPushAndCallStore : Obligations.OnlyPushAndCallStore := by
  intro i s t h
  obtain hkept | ⟨hi, v, hstored⟩ := exec_memEffect h
  · exact ⟨fun a _ => State.readByte_congr hkept a, fun _ _ => State.readByte_congr hkept⟩
  · refine ⟨fun a ha => ?_, fun hpush hcall => absurd hi (not_or_intro hpush hcall)⟩
    rw [State.readByte_congr hstored, State.readByte_writeByte, if_neg ha]

end Sys2Proof.Machine
end

section
/-! SUPPORT. What a read gives after stores in order (20_memory.md R46, R52) and after the loader's stores (20_memory.md R41,
70_reset_and_hazards.md R180). -/

namespace Sys2Proof.Machine

/-- Settles O46, by induction on the stores from the last one back: the last decides its own address, and at every other
address the read is that of the earlier stores. -/
theorem readGivesTheLastWrite : Obligations.ReadGivesTheLastWrite := by
  intro s stores a
  induction stores using List.reverseRecOn with
  | nil => rfl
  | append_singleton earlier last ih =>
    rw [List.foldl_append, List.foldl_cons, List.foldl_nil, State.readByte_writeByte, List.reverse_append,
      List.reverse_singleton, List.singleton_append]
    by_cases ha : a = last.1
    · rw [if_pos ha, List.find?_cons_of_pos (by simp [ha])]
    · rw [if_neg ha, List.find?_cons_of_neg (by simp [Ne.symm ha]), ih]

/-- Settles O48: a running engine has a next state, whose `ir` is the byte read at `pc`, the one just stored. -/
theorem fetchSeesTheLatestStore : Obligations.FetchSeesTheLatestStore := by
  intro s a v hr
  obtain ⟨t, ht⟩ := exists_step_of_running (s := (s.writeByte a v).setPc a) hr
  refine ⟨t, ht, ?_⟩
  rw [step_ir_eq ht, State.setPc_pc, State.readByte_setPc, State.readByte_writeByte, if_pos rfl]

/-- The loader's stores at rising addresses mod 256 do not overlap as long as the bytes fit in memory: a read gives the byte
whose place is its distance from the first address, and past the end what was there. -/
theorem State.readByte_writeBytes (bytes : List Byte) (s : State) (a b : Byte) (h : bytes.length ≤ memSize) :
    (s.writeBytes a bytes).readByte b = bytes.getD (b - a).toNat (s.readByte b) := by
  induction bytes generalizing s a with
  | nil => rfl
  | cons v rest ih =>
    have hlen : rest.length < 256 := h
    rw [State.writeBytes, ih _ _ (Nat.le_of_lt hlen), State.readByte_writeByte]
    by_cases hb : b = a
    · have hdist : (b - (a + 1#8)).toNat = 255 := by subst hb; bv_omega
      have hself : (b - a).toNat = 0 := by simp [hb]
      rw [if_pos hb, hdist, hself, List.getD_cons_zero, List.getD_eq_default _ _ (by omega)]
    · have hdist : (b - a).toNat = (b - (a + 1#8)).toNat + 1 := by bv_omega
      rw [if_neg hb, hdist, List.getD_cons_succ]

/-- The loader writes memory and nothing else (R180). -/
theorem State.writeBytes_eq_with_mem (bytes : List Byte) (s : State) (a : Byte) :
    s.writeBytes a bytes = { s with mem := (s.writeBytes a bytes).mem } := by
  induction bytes generalizing s a with
  | nil => rfl
  | cons v rest ih => exact ih (s.writeByte a v) (a + 1#8)

/-- An image that fits is stored (R180). -/
theorem loadImage_of_le {image : List Byte} (s : State) (h : image.length ≤ memSize) :
    loadImage image s = .ok (s.writeBytes loadBase image) := if_pos h

/-- An image that does not fit is refused (D17). -/
theorem loadImage_of_lt {image : List Byte} (s : State) (h : memSize < image.length) :
    loadImage image s = .error .programLoadError := if_neg (Nat.not_le_of_lt h)

/-- Settles O50: the load is the loader's stores from address 0 over the blank memory of a new engine. -/
theorem loadPlacesTheImage : Obligations.LoadPlacesTheImage := by
  intro cfg image
  refine ⟨fun hfits => ⟨_, loadImage_of_le _ hfits, fun a => ?_, State.writeBytes_eq_with_mem _ _ _,
    State.writeBytes_wf (State.construct_wf cfg) image _⟩, loadImage_of_lt _⟩
  have hdist : a - loadBase = a := BitVec.sub_zero a
  have hblank : (State.construct cfg).readByte a = 0x00#8 := rfl
  rw [State.readByte_writeBytes image _ _ _ hfits, hdist, hblank]

end Sys2Proof.Machine
end

section
/-! SUPPORT. The decoder as the inverse of the encoder (30_encoding.md R60 to R66): which byte strings decode, and to what. -/

namespace Sys2Proof

/-- The operand bytes of an instruction built from a mnemonic are as many as its format has, in order (R61, R62). -/
theorem Mnemonic.instr_operandBytes (m : Mnemonic) (a b : Byte) :
    (m.instr a b).operandBytes = [a, b].take (m.length - 1) := by
  cases m <;> rfl

/-- An instruction is its opcode byte and its operand bytes (R60, R61). -/
theorem Instr.operandBytes_length_add_one (i : Instr) : i.operandBytes.length + 1 = i.length := by
  cases i <;> rfl

/-- The operand decoder reads back the operand bytes of every instruction. -/
theorem decodeOperands_operandBytes (i : Instr) (rest : List Byte) :
    decodeOperands i.mnemonic (i.operandBytes ++ rest) = .ok (i, rest) := by
  cases i <;> rfl

/-- The operand decoder answers an instruction of its mnemonic exactly on that instruction's operand bytes. -/
theorem decodeOperands_eq_ok_iff {m : Mnemonic} {bytes rest : List Byte} {i : Instr} :
    decodeOperands m bytes = .ok (i, rest) ↔ i.mnemonic = m ∧ bytes = i.operandBytes ++ rest := by
  constructor
  · intro h
    obtain ⟨hlen, rfl, rfl⟩ | ⟨hlen, a, rfl, rfl⟩ | ⟨hlen, a, b, rfl, rfl⟩ := decodeOperands_eq_ok h <;>
      simp [Mnemonic.instr_operandBytes, hlen]
  · rintro ⟨rfl, rfl⟩
    exact decodeOperands_operandBytes i rest

/-- What decodes, on any map: an opcode byte of the instruction's mnemonic, its operand bytes, and the rest. -/
theorem decode_eq_ok_iff {map : OpcodeMap} {bytes rest : List Byte} {i : Instr} :
    decode map bytes = .ok (i, rest) ↔
      ∃ b, decodeOpcode map b = some i.mnemonic ∧ bytes = b :: (i.operandBytes ++ rest) := by
  cases bytes with
  | nil => simp [decode]
  | cons b tail =>
    cases hb : decodeOpcode map b with
    | none => simp [decode, hb]
    | some m => simp [decode, hb, decodeOperands_eq_ok_iff, eq_comm (a := m)]

/-- A byte string that begins with an illegal opcode does not decode (R67). -/
theorem decode_cons_of_illegal {map : OpcodeMap} {b : Byte} (h : decodeOpcode map b = none) (tail : List Byte) :
    decode map (b :: tail) = .error (.illegalOpcode b) := by
  simp only [decode, h]

/-- Settles O1: on an injective map the opcode byte gives its mnemonic back, and the operand bytes give the operands. -/
theorem decodeEncodeRoundTrip : Obligations.DecodeEncodeRoundTrip := by
  intro map hinj i rest
  exact decode_eq_ok_iff.mpr ⟨map.code i.mnemonic, (decodeOpcode_eq_some hinj).mpr rfl, rfl⟩

/-- Settles O2: what decodes begins with a byte that decodes to its mnemonic, and that is the byte the map gives it. -/
theorem decodedBytesAreTheEncoding : Obligations.DecodedBytesAreTheEncoding := by
  intro map bytes rest i h
  obtain ⟨b, hb, rfl⟩ := decode_eq_ok_iff.mp h
  rw [encode, code_of_decodeOpcode hb, List.cons_append]

/-- Settles O3: the two answers of the opcode decoder. -/
theorem opcodeDecodingInvertsTheMap : Obligations.OpcodeDecodingInvertsTheMap :=
  fun _ hinj _ => ⟨fun _ => decodeOpcode_eq_some hinj, decodeOpcode_eq_none⟩

/-- Settles O4: both strings decode by the mnemonic of their common first byte, and the length is the mnemonic's. -/
theorem lengthFollowsFromTheOpcode : Obligations.LengthFollowsFromTheOpcode := by
  intro map b p q rest rest' i j hi hj
  obtain ⟨_, hbi, hp⟩ := decode_eq_ok_iff.mp hi
  obtain ⟨_, hbj, hq⟩ := decode_eq_ok_iff.mp hj
  obtain ⟨rfl, rfl⟩ := List.cons.inj hp
  obtain ⟨rfl, rfl⟩ := List.cons.inj hq
  have hm : i.mnemonic = j.mnemonic := Option.some.inj (hbi.symm.trans hbj)
  refine ⟨hm, congrArg Mnemonic.length hm, ?consumed, Laws.EncodeLength.one_le_length i,
    Laws.EncodeLength.length_le_three i⟩
  case consumed =>
    rw [← i.operandBytes_length_add_one, List.length_cons, List.length_append]
    omega

end Sys2Proof
end

section
/-! SUPPORT. Injective opcode maps (30_encoding.md R65, R67): what injectivity says of the mnemonics, and how many bytes
such a map leaves illegal. -/

namespace Sys2Proof

/-- The 16 opcode values differ exactly where no two mnemonics share one. -/
theorem OpcodeMap.injective_iff {map : OpcodeMap} :
    map.Injective ↔ ∀ m k, map.code m = map.code k → m = k := by
  refine ⟨fun h _ _ => h.eq, fun h => ?_⟩
  have hall : Mnemonic.all.Nodup := by decide
  exact hall.map h

/-- A byte decodes exactly where it is one of the map's opcode values, on any map (R67). -/
theorem decodeOpcode_isSome_iff_mem_codes {map : OpcodeMap} {b : Byte} :
    (decodeOpcode map b).isSome ↔ b ∈ map.codes := by
  change _ ↔ b ∈ Mnemonic.all.map map.code
  rw [Option.isSome_iff_ne_none, Ne, decodeOpcode_eq_none]
  simp [Mnemonic.mem_all]

/-- The byte values that decode are the opcode values, each once on an injective map. -/
theorem OpcodeMap.Injective.filter_decodes_perm {map : OpcodeMap} (h : map.Injective) :
    ((List.range 256).filter fun n => (decodeOpcode map (BitVec.ofNat 8 n)).isSome).Perm
      (map.codes.map BitVec.toNat) := by
  have hvalues : (map.codes.map BitVec.toNat).Nodup := h.map fun _ _ => BitVec.eq_of_toNat_eq
  refine (List.perm_ext_iff_of_nodup (List.nodup_range.filter _) hvalues).mpr fun n => ?_
  rw [List.mem_filter, List.mem_range, decodeOpcode_isSome_iff_mem_codes, List.mem_map]
  constructor
  · rintro ⟨hn, hmem⟩
    exact ⟨_, hmem, Nat.mod_eq_of_lt hn⟩
  · rintro ⟨b, hb, rfl⟩
    exact ⟨b.isLt, by rwa [BitVec.ofNat_toNat, BitVec.setWidth_eq]⟩

/-- An injective map leaves 240 of the 256 byte values illegal (R67). -/
theorem OpcodeMap.Injective.countP_illegal {map : OpcodeMap} (h : map.Injective) :
    (List.range 256).countP (fun n => (decodeOpcode map (BitVec.ofNat 8 n)).isNone) = 240 := by
  have hlegal : (List.range 256).countP (fun n => (decodeOpcode map (BitVec.ofNat 8 n)).isSome) = 16 := by
    rw [List.countP_eq_length_filter, h.filter_decodes_perm.length_eq, List.length_map]
    rfl
  have hsplit := List.length_eq_countP_add_countP (l := List.range 256)
    (fun n => (decodeOpcode map (BitVec.ofNat 8 n)).isSome)
  simp only [List.length_range, hlegal, Bool.not_eq_true, Option.isSome_eq_false_iff,
    Bool.decide_eq_true] at hsplit
  omega

/-- Settles O53: the parameters of every state hold the proof that their map is injective. -/
theorem engineMapIsInjective : Obligations.EngineMapIsInjective :=
  fun s => ⟨OpcodeMap.injective_iff.mp s.cfg.injective, OpcodeMap.Injective.countP_illegal s.cfg.injective⟩

/-- Settles O54: `Config.ofMap` refuses exactly the maps that are not injective, and answers with what it was given. -/
theorem noEngineTakesASharedOpcode : Obligations.NoEngineTakesASharedOpcode := by
  intro map pcOverflow
  constructor
  · rintro ⟨m, k, hne, hshared⟩
    exact Config.ofMap_eq_none.mpr fun hinj => hne (hinj.eq hshared)
  · intro h
    exact ⟨⟨map, pcOverflow, OpcodeMap.injective_iff.mpr h⟩, Config.ofMap_eq_some.mpr ⟨rfl, rfl⟩, rfl, rfl⟩

end Sys2Proof
end

section
/-! SUPPORT. The default opcode map (30_encoding.md R64, R65; D1, PRESUMED): its fields and some of its words. -/

namespace Sys2Proof

theorem OpcodeMap.ls8_injective : OpcodeMap.ls8.Injective := by decide

/-- Field AA of R64 is the number of operand bytes. -/
theorem OpcodeMap.ls8_code_div_64 (m : Mnemonic) : (OpcodeMap.ls8.code m).toNat / 64 + 1 = m.length := by
  cases m <;> rfl

/-- Bit B of R64 marks the ALU instructions. -/
theorem OpcodeMap.ls8_code_getLsbD_5 (m : Mnemonic) :
    (OpcodeMap.ls8.code m).getLsbD 5 = true ↔ m ∈ [Mnemonic.add, .sub, .mul, .div, .cmp] := by
  cases m <;> decide

/-- Bit C of R64 marks the instructions that set PC. -/
theorem OpcodeMap.ls8_code_getLsbD_4 (m : Mnemonic) :
    (OpcodeMap.ls8.code m).getLsbD 4 = true ↔ m ∈ [Mnemonic.call, .ret, .jmp, .jeq, .jne] := by
  cases m <;> decide

/-- Settles O5: the eight words are encodings under the injective default map, so the round trip reads them back; no
mnemonic has the opcode 0x00 or 0xA8. -/
theorem defaultMapWordsDecode : Obligations.DefaultMapWordsDecode := by
  have roundTrip := decodeEncodeRoundTrip OpcodeMap.ls8 OpcodeMap.ls8_injective
  exact ⟨roundTrip (.ldi 0x00#8 0x08#8) [], roundTrip (.prn 0x00#8) [], roundTrip (.sub 0x02#8 0x03#8) [],
    roundTrip (.cmp 0x00#8 0x01#8) [], roundTrip (.push 0x07#8) [], roundTrip .ret [0x00#8],
    roundTrip (.jeq 0x02#8) [], roundTrip .hlt [],
    decode_cons_of_illegal (by decide) _, decode_cons_of_illegal (by decide) _⟩

/-- Settles O6: injectivity and the three fields, one lemma each. -/
theorem defaultMapHasTheFieldLayout : Obligations.DefaultMapHasTheFieldLayout :=
  ⟨OpcodeMap.ls8_injective, fun m =>
    ⟨OpcodeMap.ls8_code_div_64 m, OpcodeMap.ls8_code_getLsbD_5 m, OpcodeMap.ls8_code_getLsbD_4 m⟩⟩

end Sys2Proof
end

section
/-! SUPPORT. How a run ends (40_engine.md R85, R88; 60_exceptions.md R150 to R153): a cycle leaves the engine Running, halts
it on an HLT, or takes a fault whose cause holds of the state. -/

namespace Sys2Proof.Machine

theorem eq_hlt_of_mnemonic {i : Instr} (h : i.mnemonic = .hlt) : i = .hlt := by
  cases i with
  | hlt => rfl
  | _ => cases h

/-- Everything a handler can do to a running engine: keep it Running, halt it in place by HLT, or raise. -/
theorem exec_ends {i : Instr} {s t : State} (h : exec i s = .next t) (hr : s.run = .running) :
    t.run = .running ∨ (i = .hlt ∧ t = s.setRun .halted) ∨ ∃ c, MayRaise i s c ∧ t = s.raise c := by
  rcases exec_eq_next h with hc | hraise
  · obtain ⟨_, hkept | ⟨hm, _⟩, _⟩ := hc.effects
    · exact .inl (hkept.trans hr)
    · obtain rfl := eq_hlt_of_mnemonic hm
      exact .inr (.inl ⟨rfl, hc⟩)
  · exact .inr (.inr hraise)

/-- What a handler raises is explained by the state it runs in, where `ir` holds its opcode (R150, R151). -/
theorem MayRaise.explained {i : Instr} {s : State} {c : FaultCause} (h : MayRaise i s c)
    (hir : s.ir = s.cfg.opcodeMap.code i.mnemonic) : c.Explained s := by
  cases c with
  | illegalInstruction | unsupportedArithmeticOperation => exact h.elim
  | divisionByZero d =>
    obtain ⟨⟨rA, rfl⟩, hzero⟩ := h
    exact ⟨hir, hzero⟩
  | registerIndexOutOfRange b =>
    obtain ⟨_, habove⟩ := h
    exact habove
  | addressOutOfRange addr =>
    obtain ⟨hmode, hlow, hhigh⟩ := h
    have := s.pc.isLt
    exact ⟨hmode, hlow, by omega⟩

/-- What the fetch raises is explained by the state it reads (R82, R86). -/
theorem State.explained_of_fetchInstr_eq_error {s : State} {c : FaultCause} (h : s.fetchInstr = .error c) :
    c.Explained s := by
  obtain ⟨rfl, hillegal⟩ | ⟨hmode, k, hk, hlow, rfl⟩ := State.fetchInstr_eq_error h
  · exact hillegal
  · have := s.pc.isLt
    exact ⟨hmode, hlow, by omega⟩

/-- Everything a cycle can do to the run: it goes on, halts in place on the opcode of HLT, or takes an explained fault. -/
theorem step_ends {s t : State} (h : step s = .next t) :
    t.run = .running ∨
      (s.readByte s.pc = s.cfg.opcodeMap.hlt ∧ t = s.fetchOpcode.setRun .halted) ∨
      ∃ c, c.Explained s.fetchOpcode ∧ t = s.fetchOpcode.raise c := by
  obtain ⟨hr, ⟨c, hc, rfl⟩ | ⟨i, hi, hexec⟩⟩ := step_eq_next h
  · exact .inr (.inr ⟨c, State.explained_of_fetchInstr_eq_error hc, rfl⟩)
  · have hop := State.fetchInstr_eq_ok hi
    obtain hrunning | ⟨rfl, rfl⟩ | ⟨c, hraise, rfl⟩ := exec_ends hexec hr
    · exact .inl hrunning
    · exact .inr (.inl ⟨hop, rfl⟩)
    · exact .inr (.inr ⟨c, hraise.explained hop, rfl⟩)

/-- Settles O21: by `step_ends`, since neither halting nor raising changes what the cause is explained by. -/
theorem stepKeepsEndExplained : Obligations.StepKeepsEndExplained := by
  intro s t _ h
  obtain hrunning | ⟨hop, rfl⟩ | ⟨c, hc, rfl⟩ := step_ends h
  · simp only [State.EndExplained, hrunning]
  · exact ⟨rfl, hop⟩
  · refine ⟨rfl, rfl, rfl, ?_⟩
    cases c <;> exact hc

/-- Settles O15: of the ends of a cycle only the one on the opcode of HLT is Halted. -/
theorem onlyHltHalts : Obligations.OnlyHltHalts := by
  intro s t h hhalted
  obtain hrunning | ⟨hop, _⟩ | ⟨c, _, rfl⟩ := step_ends h
  · rw [hrunning] at hhalted
    cases hhalted
  · exact hop
  · cases hhalted

/-- Settles O14: a cycle that fails has raised after its fetch, and the record holds the cause it raised. -/
theorem faultsArePrecise : Obligations.FaultsArePrecise := by
  intro s t record h hf
  obtain ⟨c, rfl⟩ := step_failed h hf
  obtain rfl := RunState.failed.inj hf
  exact State.raise_faultTaken s.fetchOpcode c

/-- Settles O39: HLT commits the halted run and nothing else. -/
theorem hltHaltsInPlace : Obligations.HltHaltsInPlace := by
  intro s
  exact ⟨s.setRun .halted, exec_of_commits rfl, rfl, rfl, rfl, rfl, rfl, rfl, fun q _ => s.getReg_setRun q .halted,
    fun a => s.readByte_setRun a .halted⟩

/-- Settles O8: `step` answers an ended run by its run state alone. -/
theorem endedRunStopsUnderItsName : Obligations.EndedRunStopsUnderItsName := by
  intro s
  constructor
  · intro hhalted
    simp only [step, hhalted]
  · intro record hfailed
    simp only [step, hfailed]

/-- Settles O11: a running engine has a next state, and every cycle leaves the byte at `pc` in `ir`. -/
theorem everyCycleWritesTheOpcodeToIr : Obligations.EveryCycleWritesTheOpcodeToIr := by
  intro s hr
  obtain ⟨t, ht⟩ := exists_step_of_running hr
  exact ⟨t, ht, step_ir_eq ht⟩

end Sys2Proof.Machine
end

section
/-! SUPPORT. What the fetch of a cycle answers, case by case (40_engine.md R81 to R83, R86): an illegal byte, operand bytes
past 255, and the instruction that the bytes from `pc` on decode to. -/

namespace Sys2Proof.Machine

/-- An illegal byte in `ir` ends the fetch (R82). -/
theorem State.fetchInstr_of_illegal {s : State} (h : ∀ m, s.cfg.opcodeMap.code m ≠ s.ir) :
    s.fetchInstr = .error .illegalInstruction := by
  simp only [State.fetchInstr, decodeOpcode_eq_none.mpr h]

/-- A legal byte in `ir` leaves the answer to the operand fetch (R83). -/
theorem State.fetchInstr_of_decodeOpcode {s : State} {m : Mnemonic} (h : decodeOpcode s.cfg.opcodeMap s.ir = some m) :
    s.fetchInstr = (s.fetchOperands m.format >>= fun ops => .ok (m.instr ops.1 ops.2)) := by
  simp only [State.fetchInstr, h]

/-- Where the last operand byte lies past 255, the first byte past it is the one at 256, and its fetch faults (R86). -/
theorem State.fetchOperands_of_past {s : State} {f : Format} (hmode : s.cfg.pcOverflow = .fault)
    (hpast : 256 < s.pc.toNat + f.length) : s.fetchOperands f = .error (.addressOutOfRange 256) := by
  have hpc := s.pc.isLt
  have hfault : ∀ k, s.pc.toNat + k = 256 → s.fetchByte k = .error (.addressOutOfRange 256) := fun k hk =>
    State.fetchByte_eq_error.mpr ⟨hmode, by omega, by rw [hk]⟩
  cases f with
  | f0 => simp only [Format.length] at hpast; omega
  | f1r =>
    simp only [Format.length] at hpast
    exact bind_eq_error.mpr (.inl (hfault 1 (by omega)))
  | f2rr | f2ri =>
    simp only [Format.length] at hpast
    by_cases hfirst : s.pc.toNat = 255
    · exact bind_eq_error.mpr (.inl (hfault 1 (by omega)))
    · have hok := State.fetchByte_eq_ok.mpr ⟨(.inr (by omega) : s.Continues 1), rfl⟩
      exact bind_eq_error.mpr (.inr ⟨_, hok, bind_eq_error.mpr (.inl (hfault 2 (by omega)))⟩)

/-- Settles O12: the fetch raises, and taking a fault changes the run state alone. -/
theorem illegalOpcodeFailsTheRun : Obligations.IllegalOpcodeFailsTheRun := by
  intro s hr hillegal
  have hstep := step_of_fetchInstr_error hr (State.fetchInstr_of_illegal (s := s.fetchOpcode) hillegal)
  obtain ⟨hrun, hpc, hir, hflags, hcfg, hout, hregs, hmem⟩ := s.fetchOpcode.raise_faultTaken .illegalInstruction
  exact ⟨_, hstep, hrun, hir, hpc, hflags, hout, hcfg, hregs, hmem⟩

/-- Settles O13: the opcode byte is legal on the engine's injective map, and the operand fetch faults at 256. -/
theorem operandFetchPastTheTopFaults : Obligations.OperandFetchPastTheTopFaults := by
  intro s m hr hop hmode hpast
  have hdecode : decodeOpcode s.cfg.opcodeMap s.fetchOpcode.ir = some m :=
    (decodeOpcode_eq_some s.cfg.injective).mpr hop.symm
  have hfetch : s.fetchOpcode.fetchInstr = .error (.addressOutOfRange 256) := by
    rw [State.fetchInstr_of_decodeOpcode hdecode]
    exact bind_eq_error.mpr (.inl (State.fetchOperands_of_past hmode hpast))
  exact ⟨_, step_of_fetchInstr_error hr hfetch, State.raise_faultTaken s.fetchOpcode _⟩

/-- An operand byte that may be fetched stands `k` past `pc`, mod 256 (R83). -/
theorem State.fetchByte_of_continues {s : State} {k : Nat} (h : s.Continues k) :
    s.fetchByte k = .ok (s.readByte (s.pc + BitVec.ofNat 8 k)) := by
  refine State.fetchByte_eq_ok.mpr ⟨h, ?_⟩
  rw [BitVec.ofNat_add, BitVec.ofNat_toNat, BitVec.setWidth_eq]

/-- A place before one that exists exists. -/
theorem State.Continues.of_le {s : State} {n k : Nat} (h : s.Continues n) (hk : k ≤ n) : s.Continues k :=
  h.imp_right fun hn => by omega

/-- The operand fetch and the operand decoder agree on the bytes after `pc`, where all those of the format exist (R62,
R83). -/
theorem State.fetchOperands_of_decodeOperands {s : State} {m : Mnemonic} {i : Instr} {rest : List Byte}
    (hcont : s.Continues (m.length - 1))
    (h : decodeOperands m [s.readByte (s.pc + 1#8), s.readByte (s.pc + 2#8)] = .ok (i, rest)) :
    (s.fetchOperands m.format >>= fun ops => .ok (m.instr ops.1 ops.2)) = .ok i := by
  unfold Mnemonic.length at hcont
  unfold decodeOperands at h
  generalize m.format = f at hcont h ⊢
  cases f with
  | f0 => cases h; rfl
  | f1r =>
    cases h
    rw [State.fetchOperands, State.fetchByte_of_continues (k := 1) hcont]
    rfl
  | f2rr | f2ri =>
    cases h
    rw [State.fetchOperands, State.fetchByte_of_continues (k := 1) (hcont.of_le (by decide)),
      State.fetchByte_of_continues (k := 2) hcont]
    rfl

/-- Settles O10: the byte at `pc` decodes to the instruction's mnemonic, and the operand fetch reads the bytes the decoder
reads. -/
theorem stepRunsTheDecodedInstruction : Obligations.StepRunsTheDecodedInstruction := by
  intro s i rest hr hdecode hroom
  obtain ⟨b, hop, hwindow⟩ := decode_eq_ok_iff.mp hdecode
  obtain ⟨rfl, hoperands⟩ := List.cons.inj hwindow
  have hcont : s.fetchOpcode.Continues (i.length - 1) := by
    have hlen := Laws.EncodeLength.one_le_length i
    exact hroom.imp_right fun h => show s.pc.toNat + (i.length - 1) ≤ 255 by omega
  have hfetch : s.fetchOpcode.fetchInstr = .ok i := by
    rw [State.fetchInstr_of_decodeOpcode (s := s.fetchOpcode) hop]
    exact State.fetchOperands_of_decodeOperands hcont (decodeOperands_eq_ok_iff.mpr ⟨rfl, hoperands⟩)
  exact step_of_fetchInstr_ok hr hfetch

end Sys2Proof.Machine
end

section
/-! SUPPORT. The checks of a handler in the order of 60_exceptions.md R154 (D11): its register operands (R87), the divisor of
DIV (R104), its sequential successor (R86). The first check that fails is the fault the handler takes. -/

namespace Sys2Proof.Machine

/-! ### The checks -/

/-- The register operands, checked in order (R87), before the checks that follow. -/
def checkOperands (bs : List Byte) (following : Except FaultCause State) : Except FaultCause State :=
  match bs with
  | [] => following
  | b :: rest => reg b >>= fun _ => checkOperands rest following

/-- The divisor of DIV, checked before what follows; no other instruction has one (R104). -/
def checkDivision (i : Instr) (s : State) (following : Except FaultCause State) : Except FaultCause State :=
  match i with
  | .div _ rB => reg rB >>= fun b => s.checkDivisor b >>= fun _ => following
  | _ => following

/-- The sequential successor, checked where the handler evaluates one (R86). -/
def checkSuccessor (i : Instr) (s : State) : Except FaultCause State :=
  match successor i s with
  | some n => s.nextPC n >>= fun _ => .ok s
  | none => .ok s

/-- All checks of a handler, in order: the first fault they raise, or the state as it was. -/
def handlerChecks (i : Instr) (s : State) : Except FaultCause State :=
  checkOperands (usedOperands i s) (checkDivision i s (checkSuccessor i s))

/-! ### What each check answers -/

/-- The first operand above 7 is the one that fails. -/
theorem checkOperands_of_find? {bs : List Byte} {b : Byte} {following : Except FaultCause State}
    (h : bs.find? (fun c => decide (7 < c.toNat)) = some b) :
    checkOperands bs following = .error (.registerIndexOutOfRange b) := by
  induction bs with
  | nil => cases h
  | cons c rest ih =>
    by_cases hc : 7 < c.toNat
    · rw [List.find?_cons_of_pos (by simpa using hc)] at h
      obtain rfl := Option.some.inj h
      exact bind_eq_error.mpr (.inl (reg_of_gt hc))
    · rw [List.find?_cons_of_neg (by simpa using hc)] at h
      obtain ⟨r, rfl⟩ := exists_regByte (Nat.le_of_not_lt hc)
      rw [checkOperands, reg_regByte]
      exact ih h

/-- Operands that all name registers leave the answer to what follows. -/
theorem checkOperands_of_le {bs : List Byte} (following : Except FaultCause State) (h : ∀ b ∈ bs, b.toNat ≤ 7) :
    checkOperands bs following = following := by
  induction bs with
  | nil => rfl
  | cons c rest ih =>
    obtain ⟨hc, hrest⟩ := List.forall_mem_cons.mp h
    obtain ⟨r, rfl⟩ := exists_regByte hc
    rw [checkOperands, reg_regByte]
    exact ih hrest

/-- Where no division by 0 is met, the answer is left to what follows. -/
theorem checkDivision_of_not_dividesByZero {i : Instr} {s : State} (following : Except FaultCause State)
    (hops : ∀ b ∈ usedOperands i s, b.toNat ≤ 7) (h : ¬ DividesByZero i s) :
    checkDivision i s following = following := by
  cases i with
  | div rA rB =>
    obtain ⟨r, rfl⟩ := exists_regByte (hops rB (by simp [usedOperands, Instr.registerOperands]))
    have hnonzero : s.checkDivisor r = .ok () := State.checkDivisor_eq_ok.mpr fun hz => h ⟨rA, r, rfl, hz⟩
    rw [checkDivision, reg_regByte]
    exact congrArg (· >>= fun _ => following) hnonzero
  | _ => rfl

theorem checkSuccessor_of_past {i : Instr} {s : State} {n : Nat} (hmode : s.cfg.pcOverflow = .fault)
    (hn : successor i s = some n) (hpast : 255 < s.pc.toNat + n) :
    checkSuccessor i s = .error (.addressOutOfRange (s.pc.toNat + n)) := by
  simp only [checkSuccessor, hn]
  exact bind_eq_error.mpr (.inl (State.nextPC_eq_error.mpr ⟨hmode, hpast, rfl⟩))

/-! ### A handler takes the fault of its first check that fails -/

/-- A check made twice in a row fails as the check made once. -/
theorem EndAlike.bind_twice {R : State → State → Prop} {α : Type} (x : Except FaultCause α)
    {k k' : α → Except FaultCause State} (h : ∀ a, EndAlike R (k a) (k' a)) :
    EndAlike R (x >>= fun _ => x >>= k) (x >>= k') := by
  cases x with
  | ok a => exact h a
  | error c => exact .error c

/-- A handler takes the fault of the checks that end alike with it. -/
theorem EndAlike.complete_of_error {R : State → State → Prop} {s : State} {checks handler : Except FaultCause State}
    {c : FaultCause} (h : checks = .error c) (ha : EndAlike R checks handler) :
    s.complete handler = .next (s.raise c) := by
  subst h
  cases ha
  rfl

/-- Every handler takes the fault its checks raise. -/
theorem exec_of_handlerChecks_eq_error {i : Instr} {s : State} {c : FaultCause} (h : handlerChecks i s = .error c) :
    exec i s = .next (s.raise c) := by
  have ok : ∀ t u : State, EndAlike (fun _ _ => True) (.ok t) (.ok u) := fun _ _ => .ok trivial
  cases i with
  | ldi r v | prn r | pra r | push r | pop r | call r =>
    exact EndAlike.complete_of_error h (.bind _ fun _ => .bind _ fun _ => ok _ _)
  | add rA rB | sub rA rB | mul rA rB | cmp rA rB =>
    exact EndAlike.complete_of_error h (.bind _ fun _ => .bind _ fun _ => .bind _ fun _ => ok _ _)
  | div rA rB =>
    exact EndAlike.complete_of_error h
      (.bind _ fun _ => .bind_twice _ fun _ => .bind _ fun _ => .bind _ fun _ => ok _ _)
  | jmp r => exact EndAlike.complete_of_error h (.bind _ fun _ => ok _ _)
  | jeq r | jne r =>
    cases hE : s.flags.E with
    | true | false =>
      simp only [handlerChecks, usedOperands, checkSuccessor, successor, hE] at h
      simp only [exec, execJeq, execJne, hE]
      exact EndAlike.complete_of_error h (.bind _ fun _ => ok _ _)
  | ret | hlt => cases h

/-- Settles O43: the register checks come first, and the first operand above 7 fails them. -/
theorem registerOperandAboveSevenFaults : Obligations.RegisterOperandAboveSevenFaults := by
  intro i s b hb
  exact ⟨_, exec_of_handlerChecks_eq_error (checkOperands_of_find? hb), State.raise_faultTaken s _⟩

/-- Settles O44: the register checks and the divisor check pass, and the successor check fails. -/
theorem successorPastTheTopFaults : Obligations.SuccessorPastTheTopFaults := by
  intro i s n hmode hn hpast hops hdiv
  have hchecks : handlerChecks i s = .error (.addressOutOfRange (s.pc.toNat + n)) := by
    rw [handlerChecks, checkOperands_of_le _ hops, checkDivision_of_not_dividesByZero _ hops hdiv,
      checkSuccessor_of_past hmode hn hpast]
  exact ⟨_, exec_of_handlerChecks_eq_error hchecks, State.raise_faultTaken s _⟩

/-! ### No check fails -/

/-- A handler uses only register operands of its instruction. -/
theorem usedOperands_subset (i : Instr) (s : State) : usedOperands i s ⊆ i.registerOperands := by
  cases i with
  | jeq r | jne r => cases hE : s.flags.E <;> simp [usedOperands, Instr.registerOperands, hE]
  | _ => exact List.Subset.refl _

/-- Settles O45: a run that fails has raised, and each fault a handler may raise has a cause that is excluded. -/
theorem wellFormedInstructionsDoNotFail : Obligations.WellFormedInstructionsDoNotFail := by
  intro i s t hr hmode hwf hdiv h record hf
  obtain ⟨c, hraise, rfl⟩ := exec_failed h hr hf
  cases c with
  | illegalInstruction | unsupportedArithmeticOperation => exact hraise
  | divisionByZero d =>
    obtain ⟨⟨rA, rfl⟩, hzero⟩ := hraise
    exact hdiv ⟨rA, d, rfl, hzero⟩
  | registerIndexOutOfRange b =>
    obtain ⟨hused, habove⟩ := hraise
    exact Nat.not_le_of_lt habove (hwf b (usedOperands_subset i s hused))
  | addressOutOfRange addr =>
    obtain ⟨hfault, _, _⟩ := hraise
    rw [hmode] at hfault
    cases hfault

end Sys2Proof.Machine
end

section
/-! SUPPORT. Completion of the load-immediate and output instructions (41_data_output.md R90 to R92): each commits one
write, to a register or to the output, and the sequential successor. -/

namespace Sys2Proof.Machine

/-- A rule that writes one register and goes on leaves everything else as it was. -/
theorem State.setReg_setPc_frame (s : State) (d : Fin 8) (v : Byte) (n : Nat) {t : State}
    (ht : t = (s.setReg d v).setPc (BitVec.ofNat 8 (s.pc.toNat + n))) :
    t.getReg d = v ∧ PcAdvanced s t n ∧ SameRegsExcept s t [d] ∧ SameMemory s t ∧ SameControl s t ∧ t.out = s.out := by
  subst ht
  exact ⟨s.getReg_setReg_self d v, pcAdvanced_of_pc rfl,
    fun q hq => s.getReg_setReg_of_ne d q v (List.ne_of_not_mem_cons hq), s.readByte_setReg d v, ⟨rfl, rfl, rfl, rfl⟩, rfl⟩

/-- A rule that prints one byte and goes on leaves everything else as it was. -/
theorem State.emit_setPc_frame (s : State) (kind : OutKind) (v : Byte) (n : Nat) {t : State}
    (ht : t = (s.emit kind v).setPc (BitVec.ofNat 8 (s.pc.toNat + n))) :
    t.out = s.out ++ [⟨kind, v⟩] ∧ PcAdvanced s t n ∧ SameRegsExcept s t [] ∧ SameMemory s t ∧ SameControl s t := by
  subst ht
  exact ⟨s.emit_out v kind, pcAdvanced_of_pc rfl, fun q _ => s.getReg_emit q v kind, fun a => s.readByte_emit v a kind,
    rfl, rfl, rfl, rfl⟩

/-- Settles O27: where the successor exists the rule of LDI commits, and it writes one register. -/
theorem ldiLoadsItsImmediate : Obligations.LdiLoadsItsImmediate := by
  intro s d v hcont
  exact ⟨_, exec_of_commits ⟨d, rfl, _, State.nextPC_of_continues hcont, rfl⟩, s.setReg_setPc_frame d v 3 rfl⟩

/-- Settles O28: where the successor exists the rules of PRN and PRA commit, and they append one event of their kind. -/
theorem printsAppendTheRegister : Obligations.PrintsAppendTheRegister := by
  intro s r hcont
  have hnext := State.nextPC_of_continues hcont
  exact ⟨⟨_, exec_of_commits ⟨r, rfl, _, hnext, rfl⟩, s.emit_setPc_frame .numeric (s.getReg r) 2 rfl⟩,
    ⟨_, exec_of_commits ⟨r, rfl, _, hnext, rfl⟩, s.emit_setPc_frame .character (s.getReg r) 2 rfl⟩⟩

end Sys2Proof.Machine
end

section
/-! SUPPORT. The arithmetic/compare unit (42_alu.md R100 to R107): what ADD, SUB, MUL and DIV write to their first register,
the flags CMP writes, and the divisor that holds 0. -/

namespace Sys2Proof.Machine

/-! ### The values -/

theorem aluAdd_toNat (p q : Byte) : (aluAdd p q).toNat = (p.toNat + q.toNat) % 256 := by
  rw [aluAdd_eq, BitVec.toNat_add]

/-- The difference is the mathematical one mod 256, never negative (R102). -/
theorem aluSub_toNat (p q : Byte) : ((aluSub p q).toNat : Int) = ((p.toNat : Int) - q.toNat) % 256 := by
  rw [aluSub, wrap8_toNat, Int.toNat_of_nonneg (Int.emod_nonneg _ (by decide))]

theorem aluMul_toNat (p q : Byte) : (aluMul p q).toNat = (p.toNat * q.toNat) % 256 := by
  rw [aluMul_eq, BitVec.toNat_mul]

/-- Settles O29: where the successor exists the three rules commit, and each writes its result to one register. -/
theorem addSubMulWrapModulo256 : Obligations.AddSubMulWrapModulo256 := by
  intro s a b hcont
  have hnext := State.nextPC_of_continues hcont
  refine ⟨⟨_, exec_of_commits ⟨a, rfl, b, rfl, _, hnext, rfl⟩, ?_⟩,
    ⟨_, exec_of_commits ⟨a, rfl, b, rfl, _, hnext, rfl⟩, ?_⟩,
    ⟨_, exec_of_commits ⟨a, rfl, b, rfl, _, hnext, rfl⟩, ?_⟩⟩
  · exact (s.setReg_setPc_frame a _ 3 rfl).imp_left fun h => by rw [h, aluAdd_toNat]
  · exact (s.setReg_setPc_frame a _ 3 rfl).imp_left fun h => by rw [h, aluSub_toNat]
  · exact (s.setReg_setPc_frame a _ 3 rfl).imp_left fun h => by rw [h, aluMul_toNat]

/-- Settles O30: the divisor check passes, and the rule writes the quotient to one register. -/
theorem divWritesTheQuotient : Obligations.DivWritesTheQuotient := by
  intro s a b hcont hnonzero
  refine ⟨_, exec_of_commits ⟨a, rfl, b, rfl, hnonzero, _, State.nextPC_of_continues hcont, rfl⟩, ?_⟩
  exact (s.setReg_setPc_frame a _ 3 rfl).imp_left fun h => by rw [h, aluDiv_toNat]

/-! ### The divisor that holds 0 -/

/-- A divisor register that holds 0 fails the divisor check, whatever follows it (R104, R154). -/
theorem checkDivision_of_zero {s : State} {b : Fin 8} (rA : Byte) (following : Except FaultCause State)
    (hzero : s.getReg b = 0#8) : checkDivision (.div rA (regByte b)) s following = .error (.divisionByZero b) := by
  have hdivisor : s.checkDivisor b = .error (.divisionByZero b) := State.checkDivisor_eq_error.mpr ⟨hzero, rfl⟩
  exact bind_eq_error.mpr (.inr ⟨b, reg_regByte b, bind_eq_error.mpr (.inl hdivisor)⟩)

theorem regByte_toNat_le (r : Fin 8) : (regByte r).toNat ≤ 7 := by
  rw [regByte_toNat]
  exact Nat.le_of_lt_succ r.isLt

/-- Settles O31: both register checks pass, and the divisor check fails before the successor is checked. -/
theorem divByZeroFails : Obligations.DivByZeroFails := by
  intro s a b hzero
  have hops : ∀ c ∈ usedOperands (.div (regByte a) (regByte b)) s, c.toNat ≤ 7 := by
    simp [usedOperands, Instr.registerOperands, regByte_toNat_le]
  have hchecks : handlerChecks (.div (regByte a) (regByte b)) s = .error (.divisionByZero b) := by
    rw [handlerChecks, checkOperands_of_le _ hops, checkDivision_of_zero _ _ hzero]
  exact ⟨_, exec_of_handlerChecks_eq_error hchecks, State.raise_faultTaken s _⟩

/-! ### The comparison -/

/-- Every comparison sets a flag, since two bytes are equal, or one is less; and never two (R27). -/
theorem compareFlags_exactlyOne (p q : Byte) : (compareFlags p q).ExactlyOne := by
  refine ⟨compareFlags_atMostOne p q, ?_⟩
  simp only [compareFlags_eq, decide_eq_true_eq]
  obtain hl | he | hg := Nat.lt_trichotomy p.toNat q.toNat
  · exact .inr (.inl hl)
  · exact .inl (BitVec.eq_of_toNat_eq he)
  · exact .inr (.inr hg)

@[simp] theorem State.compare_flags (s : State) (p q : Byte) : (s.compare p q).flags = compareFlags p q := rfl

/-- Settles O32: where the successor exists the rule of CMP commits, and beside `pc` it writes the flags alone. -/
theorem cmpSetsTheFlagPattern : Obligations.CmpSetsTheFlagPattern := by
  intro s a b hcont
  refine ⟨_, exec_of_commits ⟨a, rfl, b, rfl, _, State.nextPC_of_continues hcont, rfl⟩, ?_, ?_, ?_,
    compareFlags_exactlyOne (s.getReg a) (s.getReg b), pcAdvanced_of_pc rfl, fun _ _ => rfl, fun _ => rfl,
    rfl, rfl, rfl, rfl⟩
  all_goals simp [compareFlags_eq, BitVec.toNat_inj]

/-! ### CMP, then JEQ -/

/-- Two advances of `pc` add up. -/
theorem PcAdvanced.trans {s t u : State} {m n : Nat} (h : PcAdvanced s t m) (k : PcAdvanced t u n) :
    PcAdvanced s u (m + n) := by
  unfold PcAdvanced at *
  omega

/-- What is left of a successor that exists, after an advance part of the way, still exists. -/
theorem State.Continues.of_pcAdvanced {s t : State} {m n : Nat} (h : s.Continues (m + n)) (hpc : PcAdvanced s t m)
    (hcfg : t.cfg = s.cfg) : t.Continues n := by
  unfold State.Continues PcAdvanced at *
  rw [hcfg]
  exact h.imp_right fun hle => by omega

/-- Settles O42: JEQ reads the flags CMP left, and the registers and the rest of the way to its successor are as before. -/
theorem compareThenJumpSeesNewFlags : Obligations.CompareThenJumpSeesNewFlags := by
  intro s a b r hcont
  obtain ⟨t, ht, hE, _, _, _, hpc, hregs, _, _, _, hcfg, _⟩ := cmpSetsTheFlagPattern s a b (hcont.of_le (by decide))
  rw [BitVec.toNat_inj] at hE
  by_cases heq : s.getReg a = s.getReg b
  · have htaken : exec (.jeq (regByte r)) t = .next (t.setPc (t.getReg r)) :=
      exec_of_commits (.inl ⟨hE.mpr heq, r, rfl, rfl⟩)
    exact ⟨t, _, ht, htaken, fun _ => hregs r List.not_mem_nil, fun hne => absurd heq hne⟩
  · have hnext := State.nextPC_of_continues (State.Continues.of_pcAdvanced (n := 2) hcont hpc hcfg)
    have hpassed : exec (.jeq (regByte r)) t = .next (t.setPc (BitVec.ofNat 8 (t.pc.toNat + 2))) :=
      exec_of_commits (.inr ⟨Bool.eq_false_iff.mpr (mt hE.mp heq), _, hnext, rfl⟩)
    exact ⟨t, _, ht, hpassed, fun h => absurd h heq, fun _ => hpc.trans (n := 2) (pcAdvanced_of_pc rfl)⟩

end Sys2Proof.Machine
end

section
/-! SUPPORT. The branch instructions (43_branch.md R120 to R123): whether it is taken or not, a jump writes `pc` alone. -/

namespace Sys2Proof.Machine

/-- A jump that is taken leaves everything but `pc` as it was (R123). -/
theorem State.setPc_frame (s : State) (v : Byte) :
    (s.setPc v).pc = v ∧ SameRegsExcept s (s.setPc v) [] ∧ SameMemory s (s.setPc v) ∧ SameControl s (s.setPc v) ∧
      (s.setPc v).out = s.out :=
  ⟨s.setPc_pc v, fun q _ => s.getReg_setPc q v, fun a => s.readByte_setPc v a,
    ⟨s.setPc_flags v, s.setPc_ir v, s.setPc_run v, s.setPc_cfg v⟩, s.setPc_out v⟩

/-- A jump that is not taken goes `n` bytes on, and leaves everything else as it was (R123). -/
theorem State.setPc_successor_frame (s : State) (n : Nat) {t : State}
    (ht : t = s.setPc (BitVec.ofNat 8 (s.pc.toNat + n))) :
    PcAdvanced s t n ∧ SameRegsExcept s t [] ∧ SameMemory s t ∧ SameControl s t ∧ t.out = s.out := by
  subst ht
  exact (s.setPc_frame _).imp_left pcAdvanced_of_pc

/-- Settles O34: by E, the first or the second alternative of the rules of JEQ and JNE commits; only the first reads the
operand, and only the second needs the successor. -/
theorem conditionalJumpsReadE : Obligations.ConditionalJumpsReadE := by
  refine ⟨fun s r hE => ?jeqTaken, fun s r hE => ?jneTaken, fun s b hE hcont => ?jeqPassed, fun s b hE hcont => ?jnePassed⟩
  case jeqTaken => exact ⟨_, exec_of_commits (.inl ⟨hE, r, rfl, rfl⟩), s.setPc_frame (s.getReg r)⟩
  case jneTaken => exact ⟨_, exec_of_commits (.inl ⟨hE, r, rfl, rfl⟩), s.setPc_frame (s.getReg r)⟩
  case jeqPassed =>
    have hnext := State.nextPC_of_continues hcont
    exact ⟨_, exec_of_commits (.inr ⟨hE, _, hnext, rfl⟩), s.setPc_successor_frame 2 rfl⟩
  case jnePassed =>
    have hnext := State.nextPC_of_continues hcont
    exact ⟨_, exec_of_commits (.inr ⟨hE, _, hnext, rfl⟩), s.setPc_successor_frame 2 rfl⟩

/-- Settles O33: the rule of JMP commits in every state, and it writes `pc` alone. -/
theorem jmpGoesToTheRegister : Obligations.JmpGoesToTheRegister := by
  intro s r
  exact ⟨_, exec_of_commits ⟨r, rfl, rfl⟩, s.setPc_frame (s.getReg r)⟩

end Sys2Proof.Machine
end

section
/-! SUPPORT. The stack and subroutines (44_stack.md R130 to R136): where SP stands after a push and after a pop, completion
of PUSH, POP, CALL and RET, and the round trips of R135. -/

namespace Sys2Proof.Machine

/-! ### The stack pointer -/

/-- A push leaves SP at the address it stores to (R131). -/
@[simp] theorem State.push_sp (s : State) (value : State → Byte) : (s.push value).sp = s.pushAddr :=
  s.getReg_push value 7

theorem State.incSp_sp_toNat {s : State} {v : Byte} (h : s.sp = v) : s.incSp.sp.toNat = (v.toNat + 1) % 256 := by
  rw [State.sp, State.getReg_incSp, spIndex, if_pos rfl, BitVec.toNat_ofNat, h]

/-- An increment of SP undoes the decrement of a push, also where SP wraps (R135, D4). -/
theorem State.sp_eq_of_incremented_pushAddr {s t : State} (h : t.sp.toNat = (s.pushAddr.toNat + 1) % 256) :
    t.sp = s.sp := by
  apply BitVec.eq_of_toNat_eq
  rw [h, State.pushAddr_toNat]
  have := s.sp.isLt
  omega

/-! ### Completion -/

/-- A rule that pushes one byte and sets `pc` leaves everything else as it was (R131, R133). -/
theorem State.push_setPc_frame (s : State) (value : State → Byte) (target : Byte) {t : State}
    (ht : t = (s.push value).setPc target) :
    t.sp = s.pushAddr ∧ t.readByte s.pushAddr = value s.decSp ∧ SameMemoryExcept s t s.pushAddr ∧
      SameRegsExcept s t [7] ∧ SameControl s t ∧ t.out = s.out := by
  subst ht
  refine ⟨s.push_sp value, ?stored, fun a ha => ?memory, fun q hq => ?registers, ⟨rfl, rfl, rfl, rfl⟩, rfl⟩
  case stored => rw [State.readByte_setPc, State.readByte_push, if_pos rfl]
  case memory => rw [State.readByte_setPc, State.readByte_push, if_neg ha]
  case registers => rw [State.getReg_setPc, State.getReg_push, if_neg (List.ne_of_not_mem_cons hq)]

/-- Settles O35: where the successor exists the rule of PUSH commits, and the byte it pushes is read after the decrement. -/
theorem pushStoresBelowTheTop : Obligations.PushStoresBelowTheTop := by
  intro s r hcont
  have hnext := State.nextPC_of_continues hcont
  obtain ⟨hsp, hstored, hmem, hregs, hcontrol, hout⟩ :=
    s.push_setPc_frame (fun u => u.getReg r) (BitVec.ofNat 8 (s.pc.toNat + 2)) rfl
  rw [State.getReg_decSp] at hstored
  exact ⟨_, exec_of_commits ⟨r, rfl, _, hnext, rfl⟩, hsp, s.pushAddr_toNat, hstored, hmem, pcAdvanced_of_pc rfl, hregs,
    hcontrol, hout⟩

/-- Settles O37: where the return address exists the rule of CALL commits, and the target is read after the push. -/
theorem callPushesTheReturnAddress : Obligations.CallPushesTheReturnAddress := by
  intro s r hcont
  obtain ⟨ret, hret⟩ : ∃ ret, ret = BitVec.ofNat 8 (s.pc.toNat + 2) := ⟨_, rfl⟩
  have hnext : s.nextPC 2 = .ok ret := State.nextPC_eq_ok.mpr ⟨hcont, hret⟩
  obtain ⟨hsp, hstored, hmem, hregs, hcontrol, hout⟩ :=
    s.push_setPc_frame (fun _ => ret) ((s.push fun _ => ret).getReg r) rfl
  refine ⟨_, exec_of_commits ⟨r, rfl, _, hnext, rfl⟩, hsp, s.pushAddr_toNat, ?returnAddress, hmem, s.getReg_push _ r,
    hregs, hcontrol, hout⟩
  case returnAddress => rw [hstored, hret, BitVec.toNat_ofNat]

/-- Settles O36: where the successor exists the rule of POP commits; the register is loaded before SP is incremented, so
the increment sees the old SP, or the loaded byte where R7 is the register. -/
theorem popLoadsTheTop : Obligations.PopLoadsTheTop := by
  intro s d hcont
  refine ⟨_, exec_of_commits ⟨d, rfl, _, State.nextPC_of_continues hcont, rfl⟩, fun hd => ⟨?loaded, ?sp⟩, fun hd => ?r7,
    fun _ => rfl, pcAdvanced_of_pc rfl, fun q hq => ?registers, ⟨rfl, rfl, rfl, rfl⟩, rfl⟩
  case loaded => rw [State.getReg_setPc, State.getReg_incSp, if_neg hd, State.getReg_setReg_self, State.stackTop]
  case sp =>
    have hkept : (s.setReg d s.stackTop).sp = s.sp := s.getReg_setReg_of_ne d 7 _ hd.symm
    exact State.incSp_sp_toNat hkept
  case r7 =>
    subst hd
    have hloaded : (s.setReg 7 s.stackTop).sp = s.stackTop := s.getReg_setReg_self 7 _
    exact State.incSp_sp_toNat hloaded
  case registers =>
    have ⟨hd, h7⟩ : q ≠ d ∧ q ≠ 7 := by simpa using hq
    rw [State.getReg_setPc, State.getReg_incSp, if_neg h7, State.getReg_setReg_of_ne _ _ _ _ hd]

/-- Settles O38: the rule of RET commits in every state. -/
theorem retPopsIntoPc : Obligations.RetPopsIntoPc := by
  intro s
  refine ⟨_, exec_of_commits rfl, rfl, State.incSp_sp_toNat rfl, fun _ => rfl, fun q hq => ?registers,
    ⟨rfl, rfl, rfl, rfl⟩, rfl⟩
  case registers => rw [State.getReg_incSp, if_neg (List.ne_of_not_mem_cons hq), State.getReg_setPc]

/-! ### Round trips -/

/-- Settles O40: PUSH leaves at SP the register's value, or for R7 the decremented SP; so POP loads the first back and
increments SP, and increments the second. -/
theorem pushThenPopRestoresRegisters : Obligations.PushThenPopRestoresRegisters := by
  intro s r hcont
  obtain ⟨t, ht, htsp, _, hstored, _, htpc, htregs, ⟨_, _, _, hcfg⟩, _⟩ :=
    pushStoresBelowTheTop s r (hcont.of_le (by decide))
  obtain ⟨u, hu, hother, hr7, _, hupc, huregs, _⟩ :=
    popLoadsTheTop t r (State.Continues.of_pcAdvanced (n := 2) hcont htpc hcfg)
  rw [htsp, hstored] at hother hr7
  have hsp : u.sp = s.sp := by
    apply State.sp_eq_of_incremented_pushAddr
    by_cases hr : r = 7
    · rw [hr7 hr, if_pos hr]
    · obtain ⟨_, husp⟩ := hother hr
      exact husp
  refine ⟨t, u, ht, hu, fun q _ => ?registers, htpc.trans (n := 2) hupc⟩
  case registers =>
    by_cases hq7 : q = 7
    · subst hq7
      exact hsp
    · by_cases hqr : q = r
      · subst hqr
        obtain ⟨hloaded, _⟩ := hother hq7
        rw [hloaded, if_neg hq7]
      · rw [huregs q (by simp [hqr, hq7]), htregs q (by simp [hq7])]

/-- Settles O41: RET goes to the byte CALL stored at SP, and its increment undoes CALL's decrement. -/
theorem callThenRetReturns : Obligations.CallThenRetReturns := by
  intro s r hcont
  obtain ⟨t, ht, htsp, _, hstored, _⟩ := callPushesTheReturnAddress s r hcont
  refine ⟨t, ht, fun u husp hubyte => ?_⟩
  obtain ⟨v, hv, hpc, hvsp, _⟩ := retPopsIntoPc u
  rw [husp, htsp] at hvsp
  have hreturn : PcAdvanced s v 2 := by rw [PcAdvanced, hpc, husp, hubyte, htsp, hstored]
  exact ⟨v, hv, hreturn, State.sp_eq_of_incremented_pushAddr hvsp⟩

end Sys2Proof.Machine
end

section
/-! SUPPORT. What follows the end of a run: no cycle, and an exit status that tells how it ended (60_exceptions.md R153,
R159). -/

namespace Sys2Proof.Machine

/-- From a run that has ended no cycle leads on, so nothing else is reached (R80, R153). -/
theorem Reaches.eq_of_ended {s t : State} (h : Reaches s t) (hended : s.run ≠ .running) : t = s := by
  induction h with
  | here => rfl
  | cycle _ hstep ih =>
    subst ih
    obtain ⟨hrunning, _⟩ := step_eq_next hstep
    exact absurd hrunning hended

/-- Settles O9: a failed run has ended. -/
theorem failedIsFinal : Obligations.FailedIsFinal := by
  intro s t record hf hreach
  exact hreach.eq_of_ended (by simp [hf])

/-- How the host makes a free value a nonzero status: 1 stands in for 0 (D16, log 17). -/
theorem status_ne_zero (raw : Int) : (if raw = 0 then 1 else raw) ≠ 0 := by
  split
  · exact one_ne_zero
  · assumption

theorem failExitCode_ne_zero (k : FaultKind) : failExitCode k ≠ 0 := status_ne_zero (Config.rawFailStatus k)

theorem refusalExitCode_ne_zero (e : HostError) : refusalExitCode e ≠ 0 := status_ne_zero (Config.rawRefusalStatus e)

theorem State.exitStatus_of_running {s : State} (h : s.run = .running) : s.exitStatus = none := by
  simp only [State.exitStatus, h]

theorem State.exitStatus_of_halted {s : State} (h : s.run = .halted) : s.exitStatus = some 0 := by
  simp only [State.exitStatus, h]

theorem State.exitStatus_of_failed {s : State} {record : FaultRecord} (h : s.run = .failed record) :
    s.exitStatus = some (failExitCode record.cause.kind) := by
  simp only [State.exitStatus, h]

/-- Settles O51: the status of each end of a run, and both free values are made nonzero. -/
theorem exitStatusTellsTheEnd : Obligations.ExitStatusTellsTheEnd := by
  intro s
  exact ⟨State.exitStatus_of_halted,
    fun record hf => ⟨_, failExitCode_ne_zero record.cause.kind, State.exitStatus_of_failed hf⟩,
    State.exitStatus_of_running, refusalExitCode_ne_zero⟩

end Sys2Proof.Machine
end
